-- ==== Sys2Proof/Word.lean ====
section
/-! DEFINITION. The widths of the spec (00_scope.md R7, R9): 8-bit bytes and registers, 16-bit instruction words,
12-bit address fields and 4-bit register indices. All values are unsigned (R8). -/

namespace Sys2Proof

/-- A byte of the memory image, and the contents of a general register (R7, R14, R30). -/
abbrev Byte := BitVec 8

/-- An instruction word `w`, two bytes wide (R47), and the width of the index register `I` (R28). -/
abbrev Word := BitVec 16

/-- The 12-bit address field `nnn` (R49). -/
abbrev Addr12 := BitVec 12

/-- A register index, "a 4-bit value" with "no out-of-range case" (R16). -/
abbrev RegIdx := BitVec 4

end Sys2Proof
end

