-- ==== Sys2Proof/Syntax.lean ====
section
/-! DEFINITION. The instructions: one constructor per row of spec/opcode_table.json (30_encoding.md R55). -/

namespace Sys2Proof

/-- An instruction, as the decoder of R53 returns it. -/
inductive Instr where
  /-- `CLS`, word 0x00E0 (R63). -/
  | cls
  /-- `RET`, word 0x00EE (R64). -/
  | ret
  /-- `SYS nnn`, words 0x0nnn other than 0x00E0 and 0x00EE (R65). -/
  | sys (nnn : Addr12)
  /-- `JP nnn`, words 0x1nnn (R66). -/
  | jp (nnn : Addr12)
  /-- `CALL nnn`, words 0x2nnn (R67). -/
  | call (nnn : Addr12)
  /-- `SE Vx, kk`, words 0x3xkk (R69). -/
  | seImm (x : RegIdx) (kk : Byte)
  /-- `SNE Vx, kk`, words 0x4xkk (R70). -/
  | sneImm (x : RegIdx) (kk : Byte)
  /-- `SE Vx, Vy`, words 0x5xyn with any `n` (R71): `n` is no operand (R56, log 15). -/
  | seReg (x y : RegIdx)
  /-- `LD Vx, kk`, words 0x6xkk (R72). -/
  | ldImm (x : RegIdx) (kk : Byte)
  /-- `ADD Vx, kk`, words 0x7xkk (R73). -/
  | addImm (x : RegIdx) (kk : Byte)
  /-- The unrecognized path, words 0x8000..0xFFFF; its operand is the whole word (R74). -/
  | unrecognized (w : Word)
  deriving DecidableEq, Repr

end Sys2Proof
end

