-- ==== Sys2Proof/WellFormed.lean ====
section
/-! DEFINITION. Which terms of Instr some word decodes to. The field widths are in the types (R16, R49), so two
checks are left: SYS does not take the words of CLS and RET, and an unrecognized word has its top bit set. -/

namespace Sys2Proof

/-- `SYS nnn` is every word of class 0 except 0x00E0 and 0x00EE (R65, R53). -/
def sysTargetOk (nnn : Addr12) : Bool := nnn != 0x0E0#12 && nnn != 0x0EE#12

/-- An unrecognized word lies in 0x8000..0xFFFF (R74). -/
def unrecognizedWordOk (w : Word) : Bool := w.msb

/-- An instruction term that is the decoding of some word (R55, R58). -/
def Instr.wellFormed : Instr → Bool
  | .cls => true
  | .ret => true
  | .sys nnn => sysTargetOk nnn
  | .jp _ => true
  | .call _ => true
  | .seImm _ _ => true
  | .sneImm _ _ => true
  | .seReg _ _ => true
  | .ldImm _ _ => true
  | .addImm _ _ => true
  | .unrecognized w => unrecognizedWordOk w

end Sys2Proof
end

