-- ==== Sys2Proof/Decode.lean ====
section
/-! DEFINITION. Decoding (30_encoding.md R48 to R59) and, after it, the encoder (R50, R60). -/

namespace Sys2Proof

/-! ### Fields of the instruction word (R49) -/

/-- `nibble = w[15:12]`, the primary opcode class (R49). -/
def Word.nibble (w : Word) : BitVec 4 := w.extractLsb' 12 4

/-- `x = w[11:8]` (R49). -/
def Word.x (w : Word) : RegIdx := w.extractLsb' 8 4

/-- `y = w[7:4]` (R49). -/
def Word.y (w : Word) : RegIdx := w.extractLsb' 4 4

/-- `nnn = w[11:0]` (R49). -/
def Word.nnn (w : Word) : Addr12 := w.extractLsb' 0 12

/-- `kk = w[7:0]` (R49). -/
def Word.kk (w : Word) : Byte := w.extractLsb' 0 8

/-- `n = w[3:0]`, read by no in-scope instruction (R49, R56). -/
def Word.n (w : Word) : BitVec 4 := w.extractLsb' 0 4

/-- The word of two fetched bytes: the first supplies bits 15:8, the second bits 7:0 (R38, R48). -/
def wordOfBytes (b0 b1 : Byte) : Word := b0 ++ b1

/-- The byte of `w` that stands at the lower address, `w[15:8]` (R38). -/
def Word.b0 (w : Word) : Byte := w.extractLsb' 8 8

/-- The byte of `w` that stands at the higher address, `w[7:0]` (R38). -/
def Word.b1 (w : Word) : Byte := w.extractLsb' 0 8

/-! ### Dispatch (R53) -/

/-- `Decode`: the two zero-operand words first, then by `nibble`; every word is some instruction (R53, R58).
A word 0x00NN that is neither of the two is SYS 0x0NN (R54, D1, log 8). -/
def decodeWord (w : Word) : Instr :=
  if w = 0x00E0#16 then .cls
  else if w = 0x00EE#16 then .ret
  else if w.nibble = 0x0#4 then .sys w.nnn
  else if w.nibble = 0x1#4 then .jp w.nnn
  else if w.nibble = 0x2#4 then .call w.nnn
  else if w.nibble = 0x3#4 then .seImm w.x w.kk
  else if w.nibble = 0x4#4 then .sneImm w.x w.kk
  else if w.nibble = 0x5#4 then .seReg w.x w.y
  else if w.nibble = 0x6#4 then .ldImm w.x w.kk
  else if w.nibble = 0x7#4 then .addImm w.x w.kk
  else .unrecognized w

/-- The decoding of two fetched bytes (R53). -/
def decodeBytes (b0 b1 : Byte) : Instr := decodeWord (wordOfBytes b0 b1)

/-- Why a byte sequence is no instruction. The decoder refuses no word (R58); it refuses a sequence with no
whole word in it. -/
inductive DecodeRefusal where
  /-- Fewer than the 2 bytes of an instruction (R47). Raised by `decode` alone, never by a step: the fetch of R48
  hands over two bytes or faults. Safe: nothing runs. -/
  | truncated
  deriving DecidableEq, Repr

/-- Decode the instruction at the front of a byte sequence, and give the bytes after it. -/
def decode : List Byte → Except DecodeRefusal (Instr × List Byte)
  | b0 :: b1 :: rest => .ok (decodeBytes b0 b1, rest)
  | [_] => .error .truncated
  | [] => .error .truncated

/-- The instruction word of `nbits` table bits `w`: bits of `w` above `nbits` are 0. -/
def tableWord (nbits w : Nat) : Word := BitVec.ofNat 16 (w % 2 ^ nbits)

/-- The decoder's reading of an opcode-table word: its two bytes as memory holds them (R38), decoded. -/
def decodeTableWord (nbits w : Nat) : Option Instr :=
  match decode [(tableWord nbits w).b0, (tableWord nbits w).b1] with
  | .ok (i, _) => some i
  | .error _ => none

/-! ### The encoder (R50, R60) -/

/-- Format A: class and `nnn` (R50). -/
def formatA (cls : BitVec 4) (nnn : Addr12) : Word := cls ++ nnn

/-- Format XK: class, `x` and `kk` (R50). -/
def formatXK (cls : BitVec 4) (x : RegIdx) (kk : Byte) : Word := cls ++ (x ++ kk)

/-- Format XY: class, `x`, `y` and `n` (R50). -/
def formatXY (cls : BitVec 4) (x y : RegIdx) (n : BitVec 4) : Word := cls ++ (x ++ (y ++ n))

/-- The word of an instruction (R60). `SE Vx, Vy` is emitted with `n` = 0 (R60, D20, log 15). -/
def encode : Instr → Word
  | .cls => 0x00E0#16
  | .ret => 0x00EE#16
  | .sys nnn => formatA 0x0#4 nnn
  | .jp nnn => formatA 0x1#4 nnn
  | .call nnn => formatA 0x2#4 nnn
  | .seImm x kk => formatXK 0x3#4 x kk
  | .sneImm x kk => formatXK 0x4#4 x kk
  | .seReg x y => formatXY 0x5#4 x y 0x0#4
  | .ldImm x kk => formatXK 0x6#4 x kk
  | .addImm x kk => formatXK 0x7#4 x kk
  | .unrecognized w => w

/-- The two bytes of an instruction in the order memory holds them (R38). -/
def encodeBytes (i : Instr) : List Byte := [(encode i).b0, (encode i).b1]

end Sys2Proof
end

