-- ==== Sys2Proof/Config.lean ====
section
/-! DEFINITION. The implementation parameters of 00_scope.md R7, at the values the document states (decision D21,
DESIGN CHOICE of the spec, log 16). The spec leaves no value free, so there is no opaque constant here. -/

namespace Sys2Proof.Config

/-- `MEM_SIZE`: bytes in the memory image (R7). -/
abbrev memSize : Nat := 0x1000

/-- `PROG_START`: the reset value of the cursor, the load offset and the empty-stack return target (R7). -/
abbrev progStart : Nat := 0x200

/-- `STACK_DEPTH`: the most entries the call stack holds (R7). -/
abbrev stackDepth : Nat := 15

/-- `NREGS`: the number of general registers (R7; 16, not the 15 of the source program, C2). -/
abbrev nregs : Nat := 16

/-- The instruction width in bytes (R7, R47). -/
abbrev instrBytes : Nat := 2

end Sys2Proof.Config
end

