-- ==== Sys2Proof/Machine/Memory.lean ====
section
/-! DEFINITION. The memory image (20_memory.md R30, R32): a list of cells in one canonical form. -/

namespace Sys2Proof.Machine

/-- The memory image as the cells that differ from what an unlisted address reads as, by rising address. -/
abbrev Memory := List Host.Cell

/-- What an address with no cell reads as: the image is "created with all bytes zeroed" (R32; log 1). -/
def Memory.unlisted : Byte := 0x00#8

/-- `MemRead(a, 1)`, the byte at `a` (R34). It has no side effect; the bound on `a` is checked by its caller. -/
def Memory.read : Memory → Nat → Byte
  | [], _ => Memory.unlisted
  | (k, w) :: m, a => if a = k then w else Memory.read m a

/-- `MemWrite(a, 1, v)` (R10), used by program load alone (R98). Writing the unlisted byte removes the cell. -/
def Memory.write : Memory → Nat → Byte → Memory
  | [], a, v => if v = Memory.unlisted then [] else [(a, v)]
  | (k, w) :: m, a, v =>
    if a < k then (if v = Memory.unlisted then (k, w) :: m else (a, v) :: (k, w) :: m)
    else if a = k then (if v = Memory.unlisted then m else (k, v) :: m)
    else (k, w) :: Memory.write m a v

/-- `MemWrite` of consecutive bytes from `a` up. -/
def Memory.writeBytes : Memory → Nat → List Byte → Memory
  | m, _, [] => m
  | m, a, b :: bs => Memory.writeBytes (Memory.write m a b) (a + 1) bs

/-- The canonical form: addresses strictly rising and inside the image (R30), no cell equal to the unlisted byte. -/
abbrev Memory.wf (m : Memory) : Prop :=
  m.Pairwise (fun p q => p.1 < q.1) ∧ ∀ p ∈ m, p.1 < Config.memSize ∧ p.2 ≠ Memory.unlisted

end Sys2Proof.Machine
end

