-- ==== Sys2Proof/Machine/State.lean ====
section
/-! DEFINITION. The machine's state as plain data: the five components of 10_state.md R13, and what the host
interface of 60_exceptions.md gives a Machine (R84, R85, R90). With it the reasons a step can stop, and reset. -/

namespace Sys2Proof.Machine

/-- The lifecycle state of a Machine, "checked at each public entry point" (R90). -/
inductive Lifecycle where
  | uninitialized
  | ready
  | closed
  deriving DecidableEq, Repr

/-- An event on the channels to the host: the diagnostic channel (R84) and the CLS hook channel (R85). The text of a
diagnostic line is not modelled (D13, log 14). -/
inductive Event where
  /-- Program load dropped excess bytes (R84, R98). -/
  | diagTruncation
  /-- The unrecognized path met the word `w` (R84, R74). -/
  | diagUnrecognized (w : Word)
  /-- SYS named the address `nnn` (R84, R65). -/
  | diagSys (nnn : Addr12)
  /-- CLS invoked the display collaborator's hook (R85, R63). -/
  | clsHook
  deriving DecidableEq, Repr

/-- The fatal faults of R75, each reported as `Fault(kind, c, info)` (R76, D5, log 11): `c` is the start address of
the instruction whose step faulted, `info` the address the failing primitive was given. No state follows (R78, D4). -/
inductive Fault where
  /-- A byte read at or above `MEM_SIZE` (R34). Raised by the fetch of any instruction. Safe: the spec ends the run
  here too. -/
  | outOfBounds (c info : Nat)
  /-- A seek or advance to `MEM_SIZE` or above (R35, R36). Raised by RET and by a taken skip. Safe in that the run ends
  here or one step later under every reading; the kind rests on decisions D2 and D3 (logs 9, 10: unsafe for the kind). -/
  | invalidAddress (c info : Nat)
  /-- A push with `STACK_DEPTH` entries present (R23). Raised by CALL. Safe: the spec ends the run here too. -/
  | stackOverflow (c info : Nat)
  deriving DecidableEq, Repr

/-- Why the machine gives no outcome of its own. -/
inductive Refusal where
  /-- An instruction with no meaning yet. Raised by a dispatch arm alone, and no arm raises it now. Safe. -/
  | notModelled (mnemonic : String)
  /-- The lifecycle error of R90: `step()` or `run()` on a machine that is not Ready "returns a lifecycle error and
  changes no state". Raised by step and run, by no instruction. Safe: nothing runs. -/
  | notReady (l : Lifecycle)
  deriving DecidableEq, Repr

/-- The state of one Machine. -/
structure State where
  /-- The memory image `mem` (R30, R32). -/
  mem : Memory
  /-- The cursor `pc`, the program counter; 0 to `MEM_SIZE` in every reachable state (R19; D11, log 2). -/
  pc : Nat
  /-- The general registers `V0` to `VF` (R14). -/
  V : Vector Byte Config.nregs
  /-- The call stack, oldest entry first: the top is the last entry, as in R23 (R22; D11, log 2). -/
  stack : List Nat
  /-- The index register `I` (R28; D6, log 12). -/
  I : Word
  /-- The lifecycle state of the Machine (R90; log 4). -/
  lifecycle : Lifecycle
  /-- Whether the host supplied the CLS collaborator at construction (R85, R86; log 5). -/
  displayAttached : Bool
  /-- The events emitted so far, oldest first; an output no step reads (R13, R84, R85; log 3). -/
  events : List Event
  deriving DecidableEq, Repr

/-- The machine right after construction with the empty program and no CLS collaborator (R97, R100; logs 5, 7). -/
def State.reset : State where
  mem := []
  pc := Config.progStart
  V := Vector.replicate Config.nregs 0x00#8
  stack := []
  I := 0x0000#16
  lifecycle := .ready
  displayAttached := false
  events := []

/-- What a step, an instruction or an operation that ends one answers (R62). -/
abbrev Result := Host.Outcome State Fault Refusal

end Sys2Proof.Machine
end

