-- ==== Sys2Proof/Machine/Ops.lean ====
section
/-! DEFINITION. The named operations of the core: raising a fault, the cursor's read, seek and advance, the register
file, the call stack, the channels to the host, and the fetch. -/

namespace Sys2Proof.Machine

/-! ### Ending a step, and running one operation after another -/

/-- `raise <Fault>(info)`: the step ends at once with the fault and no successor state (R10, R78). This is all that
taking an exception is on this core: no trap mechanism, nothing saved, no handler (R81), and no return (R82). -/
def raise (f : Fault) : Result := .fault f

/-- Run `k` on the next state of `o`; a fault or a refusal ends the sequence (R10: in order, top to bottom). -/
def andThen (o : Result) (k : State → Result) : Result :=
  match o with
  | .next s => k s
  | .fault f => .fault f
  | .refused r => .refused r

/-- `c`, the start address of the instruction being executed: the fetch left `pc = c + 2` (R20, R76; log 17). -/
def instrStart (s : State) : Nat := s.pc - Config.instrBytes

/-- The numeric kind codes a model may use: 0, 1, 2 (R76, D5). -/
def Fault.code : Fault → Nat
  | .outOfBounds _ _ => 0
  | .invalidAddress _ _ => 1
  | .stackOverflow _ _ => 2

/-! ### The cursor (20_memory.md R34 to R36) -/

/-- `ReadByte()` of the instruction that starts at `c`: the byte at the cursor, the cursor advanced by one; OutOfBounds
at or beyond capacity (R34, R37). -/
def readByte (c : Nat) (s : State) : Except Fault (Byte × State) :=
  if s.pc ≥ Config.memSize then .error (.outOfBounds c s.pc)
  else .ok (s.mem.read s.pc, { s with pc := s.pc + 1 })

/-- `Seek(a)`: InvalidAddress unless `a` is inside the image (R35). -/
def seek (a : Nat) (s : State) : Result :=
  if a ≥ Config.memSize then raise (.invalidAddress (instrStart s) a)
  else .next { s with pc := a }

/-- `Advance(n)`: the bound is on the cursor the advance would produce (R36, D2, log 9). -/
def advance (n : Nat) (s : State) : Result :=
  if s.pc + n ≥ Config.memSize then raise (.invalidAddress (instrStart s) (s.pc + n))
  else .next { s with pc := s.pc + n }

/-! ### The register file (10_state.md R17) -/

/-- `get(i)`: `V[i]` (R17). -/
def getReg (s : State) (i : RegIdx) : Byte := s.V[i.toNat]'i.isLt

/-- `set(i, v)`: `V[i] <- v` (R17). -/
def setReg (i : RegIdx) (v : Byte) (s : State) : State := { s with V := s.V.set i.toNat v i.isLt }

/-- The setter of the index register (R28). No in-scope instruction calls it. -/
def setIndex (v : Word) (s : State) : State := { s with I := v }

/-! ### The call stack (10_state.md R23, R24) -/

/-- `Push(a)`: `a` becomes the top entry; StackOverflow at capacity (R23). -/
def push (a : Nat) (s : State) : Result :=
  if s.stack.length = Config.stackDepth then raise (.stackOverflow (instrStart s) a)
  else .next { s with stack := s.stack ++ [a] }

/-- `Pop()`: the top entry and the state without it, or none for an empty stack, which is no fault (R24). -/
def pop (s : State) : Option (Nat × State) :=
  match s.stack.getLast? with
  | none => none
  | some a => some (a, { s with stack := s.stack.dropLast })

/-! ### The channels to the host (60_exceptions.md R84, R85) -/

/-- `emit <Event>`: append an entry to the channels; no core state changes (R10). -/
def emit (e : Event) (s : State) : State := { s with events := s.events ++ [e] }

/-- Whether an event is on the diagnostic channel (R84) rather than the hook channel (R85). -/
def Event.isDiagnostic : Event → Bool
  | .diagTruncation => true
  | .diagUnrecognized _ => true
  | .diagSys _ => true
  | .clsHook => false

/-- The diagnostic channel, in order (R84). -/
def diagnostics (s : State) : List Event := s.events.filter Event.isDiagnostic

/-- What the display collaborator received: the hook events in order, and nothing where none was supplied (R85). -/
def displayReceived (s : State) : List Event :=
  if s.displayAttached then s.events.filter (fun e => !e.isDiagnostic) else []

/-! ### Fetch (30_encoding.md R48) -/

/-- `Fetch()`: two bytes in address order; the cursor ends two bytes on (R48). A fault at either byte ends it. -/
def fetch (s : State) : Except Fault (Byte × Byte × State) :=
  match readByte s.pc s with
  | .error f => .error f
  | .ok (b0, s0) =>
    match readByte s.pc s0 with
    | .error f => .error f
    | .ok (b1, s1) => .ok (b0, b1, s1)

/-- The instruction whose bytes stand at the cursor (meaningful where both are inside the image). -/
def instrAt (s : State) : Instr := decodeBytes (s.mem.read s.pc) (s.mem.read (s.pc + 1))

/-- Where an instruction word can be placed for the next fetch: at the cursor, or at `PROG_START` when fewer than two
bytes of the image are left there (log 7). -/
def fetchHome (s : State) : Nat := if s.pc + 1 < Config.memSize then s.pc else Config.progStart

/-- The state with the word `w` where the next fetch reads, on a machine that is Ready (log 7). -/
def placeWord (w : Word) (s : State) : State :=
  { s with
    mem := s.mem.writeBytes (fetchHome s) [w.b0, w.b1]
    pc := fetchHome s
    lifecycle := .ready }

end Sys2Proof.Machine
end

