-- ==== Sys2Proof/Machine/Operands.lean ====
section
/-! DEFINITION. The operand forms of 30_encoding.md R51, R52: the address `nnn`, the immediate `kk`, the registers
`Vx` and `Vy`. -/

namespace Sys2Proof.Machine

/-- `nnn` as a cursor value: an absolute byte address, zero-extended, neither scaled nor relative (R51). -/
def addressOperand (nnn : Addr12) : Nat := nnn.toNat

/-- `kk` as it stands, an unsigned 8-bit value (R51). -/
def immediateOperand (kk : Byte) : Byte := kk

/-- The value of the register a 4-bit field selects (R52). -/
def registerOperand (s : State) (x : RegIdx) : Byte := getReg s x

end Sys2Proof.Machine
end

