-- ==== Sys2Proof/Machine/Flags.lean ====
section
/-! DEFINITION. Conditions and carry. The core has no flags and no condition codes (10_state.md R26): a skip tests its
condition directly, and the carry of an addition is discarded. -/

namespace Sys2Proof.Machine

/-- The condition of SE: two unsigned 8-bit values are equal (R69, R71). -/
def equalCondition (a b : Byte) : Bool := a == b

/-- The condition of SNE: two unsigned 8-bit values differ (R70). -/
def differCondition (a b : Byte) : Bool := a != b

/-- `(a + b) mod 256`: computed exactly, then narrowed; the carry out of bit 7 is discarded (R17, R26). -/
def addWrap (a b : Byte) : Byte := BitVec.ofNat 8 ((a.toNat + b.toNat) % 256)

/-- `increment(i, delta)`: `set(i, (get(i) + delta) mod 256)` (R17). No other register changes, `VF` included (R26). -/
def incrementReg (i : RegIdx) (delta : Byte) (s : State) : State := setReg i (addWrap (getReg s i) delta) s

end Sys2Proof.Machine
end

