-- ==== Sys2Proof/Machine/JumpCall.lean ====
section
/-! DEFINITION. SYS, JP and CALL (41_jump_call.md). A meaning runs after the fetch, with `pc = c + 2`. -/

namespace Sys2Proof.Machine

/-- SYS nnn: emit DiagSys(nnn); nothing else changes and control does not transfer (R65). -/
def execSys (nnn : Addr12) (s : State) : Result := .next (emit (.diagSys nnn) s)

/-- JP nnn: seek `nnn` (R66). -/
def execJp (nnn : Addr12) (s : State) : Result := seek (addressOperand nnn) s

/-- CALL nnn: push the cursor after the fetch, `c + 2`, then seek `nnn` (R67). -/
def execCall (nnn : Addr12) (s : State) : Result := andThen (push s.pc s) (seek (addressOperand nnn))

end Sys2Proof.Machine
end

