-- ==== Sys2Proof/Machine/RegImm.lean ====
section
/-! DEFINITION. LD and ADD (43_register_immediate.md). A meaning runs after the fetch, with `pc = c + 2`. -/

namespace Sys2Proof.Machine

/-- LD Vx, kk: `V[x] <- kk` (R72). -/
def execLdImm (x : RegIdx) (kk : Byte) (s : State) : Result := .next (setReg x (immediateOperand kk) s)

/-- ADD Vx, kk: `V[x] <- (V[x] + kk) mod 256`, the carry discarded (R73). -/
def execAddImm (x : RegIdx) (kk : Byte) (s : State) : Result := .next (incrementReg x (immediateOperand kk) s)

end Sys2Proof.Machine
end

