-- ==== Sys2Proof/Machine/Skip.lean ====
section
/-! DEFINITION. The conditional skips (42_skip.md). A meaning runs after the fetch, with `pc = c + 2`. -/

namespace Sys2Proof.Machine

/-- `Skip()`: advance past exactly one more instruction, 2 bytes (R68, C1); the skipped word is not fetched. -/
def skip (s : State) : Result := advance Config.instrBytes s

/-- Skip if the condition holds, else go on at the next instruction (R68 to R71). -/
def skipIf (cond : Bool) (s : State) : Result := if cond then skip s else .next s

/-- SE Vx, kk: skip if `V[x] == kk` (R69). -/
def execSeImm (x : RegIdx) (kk : Byte) (s : State) : Result :=
  skipIf (equalCondition (registerOperand s x) (immediateOperand kk)) s

/-- SNE Vx, kk: skip if `V[x] != kk` (R70). -/
def execSneImm (x : RegIdx) (kk : Byte) (s : State) : Result :=
  skipIf (differCondition (registerOperand s x) (immediateOperand kk)) s

/-- SE Vx, Vy: skip if `V[x] == V[y]` (R71). -/
def execSeReg (x y : RegIdx) (s : State) : Result :=
  skipIf (equalCondition (registerOperand s x) (registerOperand s y)) s

end Sys2Proof.Machine
end

