-- ==== Sys2Proof/Machine/Unrecognized.lean ====
section
/-! DEFINITION. The unrecognized-opcode path (44_unrecognized.md). A meaning runs after the fetch, with `pc = c + 2`. -/

namespace Sys2Proof.Machine

/-- An unrecognized word: emit DiagUnrecognized(w) and continue; never fatal (R74, R79). -/
def execUnrecognized (w : Word) (s : State) : Result := .next (emit (.diagUnrecognized w) s)

end Sys2Proof.Machine
end

