-- ==== Sys2Proof/Machine/ZeroOperand.lean ====
section
/-! DEFINITION. CLS and RET (40_zero_operand.md). A meaning runs after the fetch, with `pc = c + 2`. -/

namespace Sys2Proof.Machine

/-- CLS: emit one ClsHook event; nothing else changes (R63, D12, log 13). -/
def execCls (s : State) : Result := .next (emit .clsHook s)

/-- RET: seek to the popped address, or to `PROG_START` when the stack is empty (R64). The seek is the one of R35, so a
popped `MEM_SIZE` raises InvalidAddress (D3, log 10). -/
def execRet (s : State) : Result :=
  match pop s with
  | none => seek Config.progStart s
  | some (a, s') => seek a s'

end Sys2Proof.Machine
end

