-- ==== Sys2Proof/Machine/Step.lean ====
section
/-! DEFINITION. One step: the lifecycle check of 60_exceptions.md R90, then fetch, decode, execute as one atomic
transition (30_encoding.md R62). -/

namespace Sys2Proof.Machine

/-- `step()`: a machine that is not Ready answers the lifecycle error (R90, D18, log 4); a Ready one fetches, decodes
and executes (R62). A faulting step has no successor state (R78). -/
def step (s : State) : Host.Outcome State Fault Refusal :=
  match s.lifecycle with
  | .uninitialized => .refused (.notReady .uninitialized)
  | .closed => .refused (.notReady .closed)
  | .ready =>
    match fetch s with
    | .error f => raise f
    | .ok (b0, b1, s1) => exec (decodeBytes b0 b1) s1

/-- The state whose very next step fetches and runs the opcode-table word `w` (log 7). -/
def State.withFetchWord (s : State) (nbits w : Nat) : State := placeWord (tableWord nbits w) s

end Sys2Proof.Machine
end

