-- ==== Sys2Proof/Machine/Load.lean ====
section
/-! DEFINITION. Construction, program load and teardown (70_reset_and_hazards.md R97 to R99, 60_exceptions.md R86, R90). -/

namespace Sys2Proof.Machine

/-- The room for a program image: `MEM_SIZE - PROG_START` (R98). -/
def loadRoom : Nat := Config.memSize - Config.progStart

/-- The cleared machine of R97 before its program is loaded; it is not Ready until the load is done. -/
def cleared (attached : Bool) : State where
  mem := []
  pc := Config.progStart
  V := Vector.replicate Config.nregs 0x00#8
  stack := []
  I := 0x0000#16
  lifecycle := .uninitialized
  displayAttached := attached
  events := []

/-- `Load(bytes)`: copy to `PROG_START`, drop the excess with one DiagTruncation, and set the cursor to `PROG_START`
(R98, R99). -/
def load (bytes : List Byte) (s : State) : State :=
  let copied : State :=
    { s with
      mem := s.mem.writeBytes Config.progStart (bytes.take loadRoom)
      pc := Config.progStart }
  if bytes.length > loadRoom then emit .diagTruncation copied else copied

/-- `new(program_bytes)` with the optional CLS collaborator (R86, R97). Load runs once, here (R98, D17, log 7). -/
def new (program : List Byte) (attached : Bool) : State :=
  { load program (cleared attached) with lifecycle := .ready }

/-- Teardown: the machine moves to Closed; doing it again changes nothing (R90; log 4). -/
def teardown (s : State) : State := { s with lifecycle := .closed }

end Sys2Proof.Machine
end

