-- ==== Sys2Proof/Machine/Run.lean ====
section
/-! DEFINITION. The run loop (60_exceptions.md R87 to R89), with the host's cancellation as the number of steps that
complete before it is taken: every cancellation point is some number (R88, D16, log 6). -/

namespace Sys2Proof.Machine

/-- How a run ends (R89), or the lifecycle error of R90. -/
inductive RunEnd where
  /-- The host cancelled between steps; the state is the one after the last completed step (R88, R89). -/
  | cancelled (s : State)
  /-- A fatal fault; there is no final state (R78, R89). -/
  | fault (f : Fault)
  /-- The machine was not Ready (R90). -/
  | refused (r : Refusal)
  deriving DecidableEq, Repr

/-- The loop of R87, cancelled before its step number `k` (counted from 0). -/
def runLoop : Nat → State → RunEnd
  | 0, s => .cancelled s
  | k + 1, s =>
    match step s with
    | .next t => runLoop k t
    | .fault f => .fault f
    | .refused r => .refused r

/-- `run()`, the host cancelling once `k` steps have completed (R87, R88). The lifecycle state is checked at entry
(R90), before the first cancellation check. -/
def run (k : Nat) (s : State) : RunEnd :=
  match s.lifecycle with
  | .uninitialized => .refused (.notReady .uninitialized)
  | .closed => .refused (.notReady .closed)
  | .ready => runLoop k s

end Sys2Proof.Machine
end

