-- ==== Sys2Proof/Safety.lean ====
section
/-! DEFINITION. The invariant every step keeps, the frame words the statements use, and the states a host can reach. -/

namespace Sys2Proof.Machine

/-- What holds of every state a run reaches. -/
structure Inv (s : State) : Prop where
  /-- The memory is in its canonical form, inside the image (R30). -/
  memWf : s.mem.wf
  /-- "cursor is always within [0, capacity]" (R19, R33). -/
  pcBound : s.pc ≤ Config.memSize
  /-- At most `STACK_DEPTH` entries (R22). -/
  stackBound : s.stack.length ≤ Config.stackDepth
  /-- "Each entry is a cursor value as pushed by CALL, in `2 .. MEM_SIZE`" (R22). -/
  stackRange : ∀ a ∈ s.stack, 2 ≤ a ∧ a ≤ Config.memSize

/-- The states the host can meet: construction with some program, then `k` completed steps (R89). -/
def Reachable (s : State) : Prop := ∃ program attached k, run k (new program attached) = .cancelled s

/-! ### Frames: what did not change from `s` to `t` -/

/-- Every register but `x` reads as before. -/
def SameRegsExcept (x : RegIdx) (s t : State) : Prop := ∀ r, r ≠ x → getReg t r = getReg s r

/-- Every register reads as before. -/
def SameRegs (s t : State) : Prop := ∀ r, getReg t r = getReg s r

/-- Every address of memory reads as before. -/
def SameMem (s t : State) : Prop := ∀ a, t.mem.read a = s.mem.read a

/-- The index register, the lifecycle state and the attachment of the display collaborator are as before. -/
def SameRest (s t : State) : Prop :=
  t.I = s.I ∧ t.lifecycle = s.lifecycle ∧ t.displayAttached = s.displayAttached

/-- Nothing but the cursor and the channels to the host may differ. -/
def OnlyPcAndEvents (s t : State) : Prop :=
  SameRegs s t ∧ SameMem s t ∧ t.stack = s.stack ∧ SameRest s t

/-- Apply `f` to the next state of an outcome; a fault or a refusal stays. -/
def mapNext (f : State → State) : Result → Result
  | .next s => .next (f s)
  | .fault e => .fault e
  | .refused r => .refused r

end Sys2Proof.Machine
end

