-- ==== Sys2Proof/Certificates/Slice0/Obligations.lean ====
section
/-! DEFINITION. The statements about the model, each from the spec's rules. A meaning runs after the fetch, so the
instruction's start address `c` and the cursor satisfy `pc = c + 2` on its entry (10_state.md R20). -/

open Sys2Proof Sys2Proof.Machine

/-! ### Encoding and decoding -/

/-- Words of the vector group V-DEC (95_test_vectors.md), at least one for every row of the opcode table. The class-0
words other than 0x00E0 and 0x00EE follow the spec's decision D1, and 0x512F its decision D26 (logs 8, 15). -/
def Obligations.SpecWordsDecodeAsListed : Prop :=
  decodeWord 0x00E0#16 = .cls ∧ decodeWord 0x00EE#16 = .ret ∧
  decodeWord 0x0000#16 = .sys 0x000#12 ∧ decodeWord 0x00E1#16 = .sys 0x0E1#12 ∧
  decodeWord 0x01EE#16 = .sys 0x1EE#12 ∧ decodeWord 0x1234#16 = .jp 0x234#12 ∧
  decodeWord 0x2ABC#16 = .call 0xABC#12 ∧ decodeWord 0x3A7F#16 = .seImm 0xA#4 0x7F#8 ∧
  decodeWord 0x4B00#16 = .sneImm 0xB#4 0x00#8 ∧ decodeWord 0x5120#16 = .seReg 0x1#4 0x2#4 ∧
  decodeWord 0x512F#16 = .seReg 0x1#4 0x2#4 ∧ decodeWord 0x6FFF#16 = .ldImm 0xF#4 0xFF#8 ∧
  decodeWord 0x7E80#16 = .addImm 0xE#4 0x80#8 ∧ decodeWord 0x8000#16 = .unrecognized 0x8000#16 ∧
  decodeWord 0xFFFF#16 = .unrecognized 0xFFFF#16

/-- Decode and encode agree for every well-formed instruction, as a word and as the bytes memory holds (R38, R50, R53,
R60). The encoder's `n` = 0 for SE Vx, Vy is the spec's decision D20 (log 15), SYS 0x0NN its decision D1 (log 8). -/
def Obligations.DecodingAnEncodedInstructionGivesItBack : Prop :=
  ∀ i : Instr, i.wellFormed = true →
    decodeWord (encode i) = i ∧ ∀ rest : List Byte, decode (encodeBytes i ++ rest) = .ok (i, rest)

/-- The other direction: every word decodes to a well-formed instruction whose encoding is the word again, but for the
ignored low nibble of class 5, which is encoded as 0 (R56, R60; the spec's decisions D20 and D26, log 15). -/
def Obligations.EncodingADecodedWordGivesItBackButForClassFive : Prop :=
  ∀ w : Word, (decodeWord w).wellFormed = true ∧
    encode (decodeWord w) = if w &&& 0xF000#16 = 0x5000#16 then w &&& 0xFFF0#16 else w

/-- The opcode map of R55 row by row, as masks and matches, with every operand: a word decodes to a row exactly when it
has the row's pattern, so every word has exactly one row (R58), CLS and RET winning over SYS. The reach of the SYS row
is the spec's decision D1 (log 8), that class 5 is not narrowed by `n` its decision D26 (log 15). -/
def Obligations.DecoderFollowsTheOpcodeMap : Prop :=
  ∀ w : Word,
    (decodeWord w = .cls ↔ w = 0x00E0#16) ∧
    (decodeWord w = .ret ↔ w = 0x00EE#16) ∧
    (∀ nnn, decodeWord w = .sys nnn ↔
      w &&& 0xF000#16 = 0x0000#16 ∧ w ≠ 0x00E0#16 ∧ w ≠ 0x00EE#16 ∧ (w &&& 0x0FFF#16).toNat = nnn.toNat) ∧
    (∀ nnn, decodeWord w = .jp nnn ↔ w &&& 0xF000#16 = 0x1000#16 ∧ (w &&& 0x0FFF#16).toNat = nnn.toNat) ∧
    (∀ nnn, decodeWord w = .call nnn ↔ w &&& 0xF000#16 = 0x2000#16 ∧ (w &&& 0x0FFF#16).toNat = nnn.toNat) ∧
    (∀ x kk, decodeWord w = .seImm x kk ↔ w &&& 0xF000#16 = 0x3000#16 ∧
      ((w &&& 0x0F00#16) >>> 8).toNat = x.toNat ∧ (w &&& 0x00FF#16).toNat = kk.toNat) ∧
    (∀ x kk, decodeWord w = .sneImm x kk ↔ w &&& 0xF000#16 = 0x4000#16 ∧
      ((w &&& 0x0F00#16) >>> 8).toNat = x.toNat ∧ (w &&& 0x00FF#16).toNat = kk.toNat) ∧
    (∀ x y, decodeWord w = .seReg x y ↔ w &&& 0xF000#16 = 0x5000#16 ∧
      ((w &&& 0x0F00#16) >>> 8).toNat = x.toNat ∧ ((w &&& 0x00F0#16) >>> 4).toNat = y.toNat) ∧
    (∀ x kk, decodeWord w = .ldImm x kk ↔ w &&& 0xF000#16 = 0x6000#16 ∧
      ((w &&& 0x0F00#16) >>> 8).toNat = x.toNat ∧ (w &&& 0x00FF#16).toNat = kk.toNat) ∧
    (∀ x kk, decodeWord w = .addImm x kk ↔ w &&& 0xF000#16 = 0x7000#16 ∧
      ((w &&& 0x0F00#16) >>> 8).toNat = x.toNat ∧ (w &&& 0x00FF#16).toNat = kk.toNat) ∧
    (∀ v, decodeWord w = .unrecognized v ↔ w &&& 0x8000#16 = 0x8000#16 ∧ v = w)

/-- R49: each field, as bits of the word and as the document's expression on the two fetched bytes. -/
def Obligations.FieldsAreTheDocumentsByteExpressions : Prop :=
  ∀ b0 b1 : Byte,
    (Word.nibble (wordOfBytes b0 b1) = (b0 >>> 4).setWidth 4 ∧
      (Word.nibble (wordOfBytes b0 b1)).toNat = (wordOfBytes b0 b1).toNat / 2 ^ 12) ∧
    (Word.x (wordOfBytes b0 b1) = (b0 &&& 0xF#8).setWidth 4 ∧
      (Word.x (wordOfBytes b0 b1)).toNat = (wordOfBytes b0 b1).toNat / 2 ^ 8 % 2 ^ 4) ∧
    (Word.y (wordOfBytes b0 b1) = (b1 >>> 4).setWidth 4 ∧
      (Word.y (wordOfBytes b0 b1)).toNat = (wordOfBytes b0 b1).toNat / 2 ^ 4 % 2 ^ 4) ∧
    (Word.nnn (wordOfBytes b0 b1) = ((Word.x (wordOfBytes b0 b1)).setWidth 12 <<< 8) ||| b1.setWidth 12 ∧
      (Word.nnn (wordOfBytes b0 b1)).toNat = (wordOfBytes b0 b1).toNat % 2 ^ 12) ∧
    (Word.kk (wordOfBytes b0 b1) = b1 ∧
      (Word.kk (wordOfBytes b0 b1)).toNat = (wordOfBytes b0 b1).toNat % 2 ^ 8) ∧
    (Word.n (wordOfBytes b0 b1) = (b1 &&& 0xF#8).setWidth 4 ∧
      (Word.n (wordOfBytes b0 b1)).toNat = (wordOfBytes b0 b1).toNat % 2 ^ 4)

/-- The decoder refuses a byte sequence exactly when it holds no whole word (R47, R58), and its name for that is
`truncated`; the refusal itself is the model's (log 18). -/
def Obligations.DecoderRefusesOnlyShortSequences : Prop :=
  ∀ (bytes : List Byte) (e : DecodeRefusal), decode bytes = .error e ↔ bytes.length < 2 ∧ e = .truncated

/-! ### Fetch and step -/

/-- R48 with R34 and R38: two bytes in address order, the first one the high half; the cursor ends two bytes on. With
one byte or none left the fetch is OutOfBounds. The fault's fields beyond the kind are the spec's decision D5 (log 11). -/
def Obligations.FetchReadsTwoBytesOrIsOutOfBounds : Prop :=
  ∀ s : State,
    (s.pc + 1 < Config.memSize → ∃ b0 b1 t, fetch s = .ok (b0, b1, t) ∧
      b0 = s.mem.read s.pc ∧ b1 = s.mem.read (s.pc + 1) ∧
      (wordOfBytes b0 b1).toNat = b0.toNat * 256 + b1.toNat ∧ t = { s with pc := s.pc + 2 }) ∧
    (s.pc + 1 = Config.memSize → fetch s = .error (.outOfBounds s.pc Config.memSize)) ∧
    (Config.memSize ≤ s.pc → fetch s = .error (.outOfBounds s.pc s.pc))

/-- R62: a Ready machine whose two bytes at the cursor decode to `i` executes `i` with the cursor moved past them. That
the machine must be Ready is R90, held in State by the model (log 4). -/
def Obligations.StepExecutesTheDecodedInstruction : Prop :=
  ∀ (s : State) (i : Instr), s.lifecycle = .ready → s.pc + 1 < Config.memSize →
    decodeBytes (s.mem.read s.pc) (s.mem.read (s.pc + 1)) = i →
    step s = exec i { s with pc := s.pc + 2 }

/-! ### The instructions: result, completion and frame -/

/-- CLS (R63, R85): one ClsHook event, received by the display collaborator if there is one, and nothing else. That the
hook changes no core state is the spec's decision D12 (log 13). -/
def Obligations.ClsEmitsOneHookEventAndNothingElse : Prop :=
  decodeWord 0x00E0#16 = .cls ∧ ∀ s : State, ∃ t, exec .cls s = .next t ∧
    t.events = s.events ++ [.clsHook] ∧ diagnostics t = diagnostics s ∧
    displayReceived t = displayReceived s ++ (if s.displayAttached then [.clsHook] else []) ∧
    t.pc = s.pc ∧ OnlyPcAndEvents s t

/-- RET (R64): to the popped address, or to `PROG_START` when the stack is empty. That a popped address outside the
image raises InvalidAddress at the RET is the spec's decision D3 (log 10), the fault's fields its decision D5 (log 11). -/
def Obligations.RetGoesToThePoppedAddressOrProgStart : Prop :=
  decodeWord 0x00EE#16 = .ret ∧ ∀ s : State,
    (s.stack = [] → ∃ t, exec .ret s = .next t ∧ t.pc = Config.progStart ∧ t.events = s.events ∧
      OnlyPcAndEvents s t) ∧
    (∀ st a, s.stack = st ++ [a] → a < Config.memSize → ∃ t, exec .ret s = .next t ∧ t.pc = a ∧ t.stack = st ∧
      t.events = s.events ∧ SameRegs s t ∧ SameMem s t ∧ SameRest s t) ∧
    (∀ st a c, s.stack = st ++ [a] → Config.memSize ≤ a → s.pc = c + 2 →
      exec .ret s = .fault (.invalidAddress c a))

/-- SYS (R65): one DiagSys(nnn) event and nothing else. Which words of the form 0x00NN are SYS is the spec's decision
D1 (log 8). -/
def Obligations.SysReportsItsTargetAndNothingElse : Prop :=
  ∀ (nnn : Addr12) (s : State),
    (nnn ≠ 0x0E0#12 → nnn ≠ 0x0EE#12 → decodeWord (formatA 0x0#4 nnn) = .sys nnn) ∧
    ∃ t, exec (.sys nnn) s = .next t ∧ t.events = s.events ++ [.diagSys nnn] ∧ t.pc = s.pc ∧ OnlyPcAndEvents s t

/-- JP (R66): the cursor becomes `nnn`; the next fetch reads there, and at 0xFFF it faults; a jump to itself re-executes
with no state change. -/
def Obligations.JpSetsTheCursorToItsTarget : Prop :=
  ∀ (nnn : Addr12) (s : State), decodeWord (formatA 0x1#4 nnn) = .jp nnn ∧
    (∃ t, exec (.jp nnn) s = .next t ∧ t.pc = nnn.toNat ∧ t.events = s.events ∧ OnlyPcAndEvents s t ∧
      (nnn ≠ 0xFFF#12 → ∃ u, fetch t = .ok (s.mem.read nnn.toNat, s.mem.read (nnn.toNat + 1), u)) ∧
      (nnn = 0xFFF#12 → ∃ c info, fetch t = .error (.outOfBounds c info))) ∧
    (s.lifecycle = .ready → s.pc = nnn.toNat → s.pc + 1 < Config.memSize → instrAt s = .jp nnn → step s = .next s)

/-- CALL (R67): the cursor after the fetch, `c + 2`, is pushed and the cursor becomes `nnn`; with 15 entries present it
is a StackOverflow. The fault's fields beyond the kind are the spec's decision D5 (log 11). -/
def Obligations.CallPushesTheReturnAddressAndJumps : Prop :=
  ∀ (nnn : Addr12) (s : State), decodeWord (formatA 0x2#4 nnn) = .call nnn ∧
    (s.stack.length < Config.stackDepth → ∃ t, exec (.call nnn) s = .next t ∧ t.pc = nnn.toNat ∧
      t.stack = s.stack ++ [s.pc] ∧ t.events = s.events ∧ SameRegs s t ∧ SameMem s t ∧ SameRest s t) ∧
    (∀ c, s.stack.length = Config.stackDepth → s.pc = c + 2 →
      exec (.call nnn) s = .fault (.stackOverflow c (c + 2)))

/-- SE Vx, kk (R68, R69). That a taken skip is bounded by the cursor it would produce is the spec's decision D2 (log 9),
the fault's fields its decision D5 (log 11). -/
def Obligations.SeImmSkipsWhenEqual : Prop :=
  ∀ (x : RegIdx) (kk : Byte) (s : State), decodeWord (formatXK 0x3#4 x kk) = .seImm x kk ∧
    (getReg s x = kk → s.pc + 2 < Config.memSize → ∃ t, exec (.seImm x kk) s = .next t ∧ t.pc = s.pc + 2 ∧
      t.events = s.events ∧ OnlyPcAndEvents s t) ∧
    (getReg s x ≠ kk → exec (.seImm x kk) s = .next s) ∧
    (∀ c, getReg s x = kk → s.pc = c + 2 → Config.memSize ≤ c + 4 →
      exec (.seImm x kk) s = .fault (.invalidAddress c (c + 4)))

/-- SNE Vx, kk (R68, R70), and that of SE and SNE on the same operands exactly one leaves the cursor and the other
skips. The bound is the spec's decision D2 (log 9), the fault's fields its decision D5 (log 11). -/
def Obligations.SneImmSkipsWhenDifferent : Prop :=
  ∀ (x : RegIdx) (kk : Byte) (s : State), decodeWord (formatXK 0x4#4 x kk) = .sneImm x kk ∧
    (getReg s x ≠ kk → s.pc + 2 < Config.memSize → ∃ t, exec (.sneImm x kk) s = .next t ∧ t.pc = s.pc + 2 ∧
      t.events = s.events ∧ OnlyPcAndEvents s t) ∧
    (getReg s x = kk → exec (.sneImm x kk) s = .next s) ∧
    (∀ c, getReg s x ≠ kk → s.pc = c + 2 → Config.memSize ≤ c + 4 →
      exec (.sneImm x kk) s = .fault (.invalidAddress c (c + 4))) ∧
    ((exec (.seImm x kk) s = skip s ∧ exec (.sneImm x kk) s = .next s) ∨
      (exec (.seImm x kk) s = .next s ∧ exec (.sneImm x kk) s = skip s))

/-- SE Vx, Vy (R68, R71), with any low nibble `n`; `x = y` always skips. That `n` is ignored is the spec's decision D26
(log 15), the bound its decision D2 (log 9), the fault's fields its decision D5 (log 11). -/
def Obligations.SeRegSkipsWhenEqual : Prop :=
  ∀ (x y : RegIdx) (n : BitVec 4) (s : State), decodeWord (formatXY 0x5#4 x y n) = .seReg x y ∧
    (getReg s x = getReg s y → s.pc + 2 < Config.memSize → ∃ t, exec (.seReg x y) s = .next t ∧ t.pc = s.pc + 2 ∧
      t.events = s.events ∧ OnlyPcAndEvents s t) ∧
    (getReg s x ≠ getReg s y → exec (.seReg x y) s = .next s) ∧
    (∀ c, getReg s x = getReg s y → s.pc = c + 2 → Config.memSize ≤ c + 4 →
      exec (.seReg x y) s = .fault (.invalidAddress c (c + 4))) ∧
    exec (.seReg x x) s = skip s

/-- LD Vx, kk (R72): `V[x]` becomes `kk`; no other register, `VF` included, and nothing else changes; it never faults. -/
def Obligations.LdImmSetsItsRegister : Prop :=
  ∀ (x : RegIdx) (kk : Byte) (s : State), decodeWord (formatXK 0x6#4 x kk) = .ldImm x kk ∧
    ∃ t, exec (.ldImm x kk) s = .next t ∧ getReg t x = kk ∧ SameRegsExcept x s t ∧ t.pc = s.pc ∧
      t.stack = s.stack ∧ SameMem s t ∧ t.events = s.events ∧ SameRest s t

/-- ADD Vx, kk (R73): `V[x]` becomes the sum modulo 256; the carry goes nowhere: no other register, `VF` included, and
nothing else changes; overflow is no fault. -/
def Obligations.AddImmAddsModulo256 : Prop :=
  ∀ (x : RegIdx) (kk : Byte) (s : State), decodeWord (formatXK 0x7#4 x kk) = .addImm x kk ∧
    ∃ t, exec (.addImm x kk) s = .next t ∧
      (getReg t x).toNat = ((getReg s x).toNat + kk.toNat) % 256 ∧ SameRegsExcept x s t ∧ t.pc = s.pc ∧
      t.stack = s.stack ∧ SameMem s t ∧ t.events = s.events ∧ SameRest s t

/-- The unrecognized path (R74): every word of 0x8000..0xFFFF emits one DiagUnrecognized(w) and the step completes with
the next instruction at `c + 2`; nothing else changes. -/
def Obligations.UnrecognizedWordReportsAndContinues : Prop :=
  ∀ (w : Word) (s : State), 0x8000 ≤ w.toNat →
    decodeWord w = .unrecognized w ∧
    (∃ t, exec (.unrecognized w) s = .next t ∧ t.events = s.events ++ [.diagUnrecognized w] ∧ t.pc = s.pc ∧
      OnlyPcAndEvents s t) ∧
    (s.lifecycle = .ready → s.pc + 1 < Config.memSize →
      wordOfBytes (s.mem.read s.pc) (s.mem.read (s.pc + 1)) = w →
      ∃ t, step s = .next t ∧ t.events = s.events ++ [.diagUnrecognized w] ∧ t.pc = s.pc + 2 ∧ OnlyPcAndEvents s t)

/-! ### The register file, the stack and the cursor -/

/-- R17: get, set and increment, with the wraparound law; an index never written reads as before. -/
def Obligations.RegisterFileSetsAndWraps : Prop :=
  ∀ (s : State) (i r : RegIdx) (v delta : Byte),
    getReg (setReg i v s) r = (if r = i then v else getReg s r) ∧
    (getReg (incrementReg i delta s) i).toNat = ((getReg s i).toNat + delta.toNat) % 256 ∧
    (r ≠ i → getReg (incrementReg i delta s) r = getReg s r) ∧
    (getReg (incrementReg i delta (setReg i v s)) i).toNat = (v.toNat + delta.toNat) % 256

/-- The call stack (R23, R24): bounded, last in first out, an empty pop no fault. The fault's fields beyond the kind are
the spec's decision D5 (log 11). -/
def Obligations.CallStackIsBoundedLastInFirstOut : Prop :=
  ∀ (s : State) (a : Nat),
    (s.stack.length < Config.stackDepth →
      ∃ t, push a s = .next t ∧ t.stack = s.stack ++ [a] ∧ t.pc = s.pc ∧ pop t = some (a, s)) ∧
    (∀ c, s.stack.length = Config.stackDepth → s.pc = c + 2 → push a s = .fault (.stackOverflow c a)) ∧
    (pop s = none ↔ s.stack = []) ∧
    (∀ t, pop s = some (a, t) ↔ s.stack = t.stack ++ [a] ∧ t = { s with stack := t.stack })

/-- The cursor's primitives (R34, R35, R36): a read moves the cursor by one and may reach `MEM_SIZE`; a seek or an
advance never does. The bound of advance is the spec's decision D2 (log 9), the fault's fields its decision D5 (log 11). -/
def Obligations.CursorPrimitivesKeepTheirBounds : Prop :=
  ∀ (s : State) (c a n : Nat),
    (s.pc < Config.memSize → readByte c s = .ok (s.mem.read s.pc, { s with pc := s.pc + 1 })) ∧
    (Config.memSize ≤ s.pc → readByte c s = .error (.outOfBounds c s.pc)) ∧
    (a < Config.memSize → seek a s = .next { s with pc := a }) ∧
    (Config.memSize ≤ a → s.pc = c + 2 → seek a s = .fault (.invalidAddress c a)) ∧
    (s.pc + n < Config.memSize → advance n s = .next { s with pc := s.pc + n }) ∧
    (Config.memSize ≤ s.pc + n → s.pc = c + 2 → advance n s = .fault (.invalidAddress c (s.pc + n))) ∧
    (∀ t, seek a s = .next t ∨ advance n s = .next t → t.pc < Config.memSize)

/-! ### Reset, construction and load -/

/-- What State.reset holds: construction with the empty program. That `I` is 0 is the spec's decision D6 (log 12), that
no display collaborator is attached and that no event has been emitted the model's choice (logs 3, 5). -/
def Obligations.ResetLeavesTheSpecValues : Prop :=
  State.reset.pc = 0x200 ∧ (∀ r, getReg State.reset r = 0x00#8) ∧ (∀ a, State.reset.mem.read a = 0x00#8) ∧
  State.reset.stack = [] ∧ State.reset.I = 0x0000#16 ∧ State.reset.lifecycle = .ready ∧ State.reset.events = [] ∧
  State.reset = new [] false

/-- Construction with any program (R97, R98): the program's first 3584 bytes at 0x200, zero everywhere else, and every
other piece of state at its reset value. That `I` is 0 is the spec's decision D6 (log 12). -/
def Obligations.ConstructionLoadsTheProgramAndClearsTheRest : Prop :=
  ∀ (program : List Byte) (attached : Bool),
    (∀ k (h : k < program.length), k < 3584 → (new program attached).mem.read (0x200 + k) = program[k]'h) ∧
    (∀ a, a < 0x200 ∨ 0x1000 ≤ a ∨ 0x200 + program.length ≤ a → (new program attached).mem.read a = 0x00#8) ∧
    (new program attached).pc = 0x200 ∧ (∀ r, getReg (new program attached) r = 0x00#8) ∧
    (new program attached).stack = [] ∧ (new program attached).I = 0x0000#16 ∧
    (new program attached).lifecycle = .ready ∧ (new program attached).displayAttached = attached ∧
    (new program attached).events = if 3584 < program.length then [.diagTruncation] else []

/-- R99, the load at the boundary: 3584 bytes fill the image to 0xFFF with no warning; of 3585 bytes the first 3584 are
written, the offset 0x1000 never, and one DiagTruncation is emitted. -/
def Obligations.LoadAtTheBoundaryTruncatesOneByte : Prop :=
  ∀ (program : List Byte) (attached : Bool),
    (program.length = 3584 → (new program attached).events = [] ∧
      ∀ k (h : k < program.length), (new program attached).mem.read (0x200 + k) = program[k]'h) ∧
    (program.length = 3585 → (new program attached).events = [.diagTruncation] ∧
      (∀ k (h : k < program.length), k < 3584 → (new program attached).mem.read (0x200 + k) = program[k]'h) ∧
      ∀ cell ∈ (new program attached).mem, cell.1 ≠ 0x1000)

/-! ### The whole machine -/

/-- Every step keeps the invariant: the memory canonical and inside the image, the cursor in 0..`MEM_SIZE` (R19, R33),
at most 15 entries on the stack and each a cursor after a fetch, 2..`MEM_SIZE` (R22). -/
def Obligations.StepKeepsTheInvariant : Prop :=
  ∀ s t : State, Inv s → step s = .next t → Inv t

/-- The invariant holds right after reset. -/
def Obligations.ResetMeetsTheInvariant : Prop := Inv State.reset

/-- The invariant holds after construction with every program. -/
def Obligations.ConstructionMeetsTheInvariant : Prop :=
  ∀ (program : List Byte) (attached : Bool), Inv (new program attached)

/-- R32: the image is created zero, load copies the program to 0x200, and from the end of load to the end of the run the
image is constant, since no instruction writes memory; what an instruction may change of the core is the cursor, the
registers and the stack. -/
def Obligations.MemoryIsConstantAfterLoad : Prop :=
  (∀ attached a, (cleared attached).mem.read a = 0x00#8) ∧
  (∀ (bytes : List Byte) (s : State), s.mem.wf →
    (∀ k (h : k < bytes.length), k < 3584 → (load bytes s).mem.read (0x200 + k) = bytes[k]'h) ∧
    (∀ a, a < 0x200 ∨ 0x1000 ≤ a ∨ 0x200 + bytes.length ≤ a → (load bytes s).mem.read a = s.mem.read a)) ∧
  (∀ (i : Instr) (s t : State), exec i s = .next t → t.mem = s.mem ∧ SameRest s t) ∧
  (∀ (k : Nat) (s t : State), run k s = .cancelled t → t.mem = s.mem)

/-- R15: LD and ADD write `V[x]` and no other instruction writes any register; ADD and the skips read the registers R15
names (another value in one of them alone turns the skip on or off, which are different outcomes) and no instruction any
other: changing the others changes no outcome but in those registers themselves. -/
def Obligations.RegistersAreReadAndWrittenAsListed : Prop :=
  (∀ (x : RegIdx) (kk : Byte) (s : State),
    (∃ t, exec (.ldImm x kk) s = .next t ∧ getReg t x = kk) ∧
    (∃ t, exec (.addImm x kk) s = .next t ∧ (getReg t x).toNat = ((getReg s x).toNat + kk.toNat) % 256)) ∧
  (∀ s : State, skip s ≠ .next s) ∧
  (∀ (x : RegIdx) (kk v : Byte) (s : State),
    exec (.seImm x kk) (setReg x v s) = (if v = kk then skip (setReg x v s) else .next (setReg x v s)) ∧
    exec (.sneImm x kk) (setReg x v s) = (if v ≠ kk then skip (setReg x v s) else .next (setReg x v s))) ∧
  (∀ (x y : RegIdx) (v : Byte) (s : State), x ≠ y →
    exec (.seReg x y) (setReg x v s) = (if v = getReg s y then skip (setReg x v s) else .next (setReg x v s)) ∧
    exec (.seReg x y) (setReg y v s) = (if getReg s x = v then skip (setReg y v s) else .next (setReg y v s))) ∧
  (∀ (i : Instr) (s t : State) (r : RegIdx), exec i s = .next t → getReg t r ≠ getReg s r →
    ∃ kk, i = .ldImm r kk ∨ i = .addImm r kk) ∧
  (∀ (i : Instr) (s : State) (v : Vector Byte Config.nregs),
    (match i with
      | .seImm x _ => getReg { s with V := v } x = getReg s x
      | .sneImm x _ => getReg { s with V := v } x = getReg s x
      | .seReg x y => getReg { s with V := v } x = getReg s x ∧ getReg { s with V := v } y = getReg s y
      | .addImm x _ => getReg { s with V := v } x = getReg s x
      | _ => True) →
    exec i { s with V := v } = mapNext
      (fun t => match i with
        | .ldImm x _ => setReg x (getReg t x) { t with V := v }
        | .addImm x _ => setReg x (getReg t x) { t with V := v }
        | _ => { t with V := v })
      (exec i s))

/-- R28: no instruction reads or writes `I`, so it keeps its reset value 0 for the whole run. That `I` is core state and
resets to 0 is the spec's decision D6 (log 12). -/
def Obligations.IndexRegisterIsNeverReadOrWritten : Prop :=
  (∀ (s t : State), step s = .next t → t.I = s.I) ∧
  (∀ (s : State) (v : Word), step { s with I := v } = mapNext (fun t => { t with I := v }) (step s)) ∧
  (∀ (program : List Byte) (attached : Bool) (k : Nat) (t : State),
    run k (new program attached) = .cancelled t → t.I = 0x0000#16)

/-- R20: the fetch leaves the cursor two bytes on, and the cursor after a completed step is, for every instruction, what
the table of R20 gives from the cursor before the step. -/
def Obligations.CursorAfterAStepFollowsTheTable : Prop :=
  (∀ (s t : State) (b0 b1 : Byte), fetch s = .ok (b0, b1, t) → t.pc = s.pc + 2) ∧
  ∀ s t : State, step s = .next t →
    match instrAt s with
    | .cls => t.pc = s.pc + 2
    | .sys _ => t.pc = s.pc + 2
    | .ldImm _ _ => t.pc = s.pc + 2
    | .addImm _ _ => t.pc = s.pc + 2
    | .unrecognized _ => t.pc = s.pc + 2
    | .seImm x kk => t.pc = if getReg s x = kk then s.pc + 4 else s.pc + 2
    | .sneImm x kk => t.pc = if getReg s x ≠ kk then s.pc + 4 else s.pc + 2
    | .seReg x y => t.pc = if getReg s x = getReg s y then s.pc + 4 else s.pc + 2
    | .jp nnn => t.pc = nnn.toNat
    | .call nnn => t.pc = nnn.toNat ∧ t.stack = s.stack ++ [s.pc + 2]
    | .ret => (s.stack = [] → t.pc = 0x200) ∧ ∀ st a, s.stack = st ++ [a] → t.pc = a

/-- The stack changes only by CALL, which appends the address after it, and by RET, which removes the top (R22, R67,
R64); every other instruction leaves it. -/
def Obligations.OnlyCallAndRetChangeTheStack : Prop :=
  ∀ s t : State, step s = .next t → t.stack ≠ s.stack →
    (∃ nnn, instrAt s = .call nnn ∧ t.stack = s.stack ++ [s.pc + 2]) ∨
    (instrAt s = .ret ∧ ∃ a, s.stack = t.stack ++ [a] ∧ t.pc = a)

/-- R77 with the order of R80: on a Ready machine in a state that meets the invariant, these and no other faults end a
step. The two InvalidAddress rows are the spec's decisions D2 and D3 (logs 9, 10), the fields D5 (log 11). -/
def Obligations.FaultsAreExactlyThoseOfTheTable : Prop :=
  ∀ (s : State) (f : Fault), Inv s → s.lifecycle = .ready →
    (step s = .fault f ↔
      (Config.memSize ≤ s.pc ∧ f = .outOfBounds s.pc s.pc) ∨
      (s.pc + 1 = Config.memSize ∧ f = .outOfBounds s.pc Config.memSize) ∨
      (s.pc + 1 < Config.memSize ∧ (
        ((∃ nnn, instrAt s = .call nnn) ∧ s.stack.length = Config.stackDepth ∧
          f = .stackOverflow s.pc (s.pc + 2)) ∨
        (instrAt s = .ret ∧ (∃ st, s.stack = st ++ [Config.memSize]) ∧ f = .invalidAddress s.pc Config.memSize) ∨
        (((∃ x kk, instrAt s = .seImm x kk ∧ getReg s x = kk) ∨
          (∃ x kk, instrAt s = .sneImm x kk ∧ getReg s x ≠ kk) ∨
          (∃ x y, instrAt s = .seReg x y ∧ getReg s x = getReg s y)) ∧
          Config.memSize ≤ s.pc + 4 ∧ f = .invalidAddress s.pc (s.pc + 4)))))

/-- The lifecycle (R90): construction gives a Ready machine; on any other `step()` and `run()` answer the lifecycle
error, a Ready one never refuses; teardown closes the machine, and twice is once. R90 is of the surrounding software, the
refusal is the spec's decision D18; that the lifecycle stands in State and that teardown changes nothing else, which R90
does not say, are the model's own choices (log 4). -/
def Obligations.OnlyTheLifecycleErrorRefuses : Prop :=
  ∀ s : State,
    (∀ r, step s = .refused r ↔ s.lifecycle ≠ .ready ∧ r = .notReady s.lifecycle) ∧
    (∀ k r, run k s = .refused r ↔ s.lifecycle ≠ .ready ∧ r = .notReady s.lifecycle) ∧
    (∀ program attached, (new program attached).lifecycle = .ready) ∧
    (teardown s).lifecycle = .closed ∧ teardown (teardown s) = teardown s ∧
    step (teardown s) = .refused (.notReady .closed) ∧
    teardown s = { s with lifecycle := .closed }

/-- R84: which diagnostics a step and a load emit, in order, and that they are observational only: what the channels
already hold changes nothing but themselves. -/
def Obligations.DiagnosticsAreEmittedInOrderAndOnlyObserved : Prop :=
  (∀ s t : State, step s = .next t → diagnostics t = diagnostics s ++
    match instrAt s with
    | .sys nnn => [.diagSys nnn]
    | .unrecognized w => [.diagUnrecognized w]
    | _ => []) ∧
  (∀ (bytes : List Byte) (s : State), diagnostics (load bytes s) = diagnostics s ++
    if 3584 < bytes.length then [.diagTruncation] else []) ∧
  (∀ (s : State) (ev : List Event), step { s with events := ev } =
    mapNext (fun t => { t with events := ev ++ t.events.drop s.events.length }) (step s))

/-- R85: each CLS step, and no other step, emits one ClsHook; whether a display collaborator is attached changes no core
state, only what the collaborator receives. That the hook changes no core state is the spec's decision D12 (log 13). -/
def Obligations.DisplayHookIsAnOutputOnly : Prop :=
  (∀ s t : State, step s = .next t → t.events.filter (fun e => !e.isDiagnostic) =
    s.events.filter (fun e => !e.isDiagnostic) ++ if instrAt s = .cls then [.clsHook] else []) ∧
  (∀ (s : State) (b : Bool), step { s with displayAttached := b } =
    mapNext (fun t => { t with displayAttached := b }) (step s)) ∧
  (∀ s : State, s.displayAttached = false → displayReceived s = [])

/-- A step reads memory at the cursor and the byte after it and nowhere else: whatever the other bytes hold (those a
taken skip passes over among them) the outcome is the same (R40, R48, R103). -/
def Obligations.StepReadsOnlyTheTwoFetchedBytes : Prop :=
  ∀ (s : State) (m : Memory), m.read s.pc = s.mem.read s.pc → m.read (s.pc + 1) = s.mem.read (s.pc + 1) →
    step { s with mem := m } = mapNext (fun t => { t with mem := m }) (step s)

/-- Two memories in canonical form that read alike everywhere are equal data: a fact about the model's own form (log 1)
of the image of R30 and R32. -/
def Obligations.MemoriesThatReadAlikeAreEqual : Prop :=
  ∀ m m' : Memory, m.wf → m'.wf → (∀ a, m.read a = m'.read a) → m = m'

/-! ### Runs -/

/-- R87, R88, R89: on a Ready machine a run cancelled at once ends in the state it began with, and any other run is a
step and then the run of what remains, or the fault that step ends in; so a run with one more cancellation point in it
is the same run. That every cancellation point is admitted is the spec's decision D16 (log 6), that a machine must be
Ready R90, held in State by the model (log 4). -/
def Obligations.RunsComposeAtEveryCancellationPoint : Prop :=
  (∀ s : State, s.lifecycle = .ready →
    run 0 s = .cancelled s ∧
    ∀ k, (∀ t, step s = .next t → run (k + 1) s = run k t) ∧ (∀ f, step s = .fault f → run (k + 1) s = .fault f) ∧
      ∀ r, step s ≠ .refused r) ∧
  ∀ (j k : Nat) (s : State), run (j + k) s =
    match run j s with
    | .cancelled t => run k t
    | .fault f => .fault f
    | .refused r => .refused r

/-- The round-trip law (W3 of 95_test_vectors.md; R64, R67): CALL then at once RET restores the cursor to the address
after the CALL and everything else; from 0xFFE, where that address is outside the image, the RET faults (the spec's
decision D3, log 10; the fault's fields D5, log 11). -/
def Obligations.CallThenRetComesBack : Prop :=
  ∀ (s : State) (nnn : Addr12), s.lifecycle = .ready → s.stack.length < Config.stackDepth →
    instrAt s = .call nnn → nnn.toNat + 1 < Config.memSize →
    decodeBytes (s.mem.read nnn.toNat) (s.mem.read (nnn.toNat + 1)) = .ret →
    (s.pc + 2 < Config.memSize → run 2 s = .cancelled { s with pc := s.pc + 2 }) ∧
    (s.pc + 2 = Config.memSize → run 2 s = .fault (.invalidAddress nnn.toNat Config.memSize))

/-- R67 and R105: a CALL to itself from an empty stack succeeds 15 times, each pushing `c + 2`, and is a StackOverflow
the 16th time. The fault's fields beyond the kind are the spec's decision D5 (log 11). -/
def Obligations.SelfCallOverflowsOnTheSixteenthStep : Prop :=
  ∀ (s : State) (nnn : Addr12), s.lifecycle = .ready → s.pc = nnn.toNat → s.pc + 1 < Config.memSize →
    instrAt s = .call nnn → s.stack = [] →
    (∀ k, k ≤ 15 → run k s = .cancelled { s with stack := List.replicate k (s.pc + 2) }) ∧
    run 16 s = .fault (.stackOverflow s.pc (s.pc + 2))

/-- The runs that never change the state again (R66, R64, R89): a jump to itself, and RET with an empty stack at
`PROG_START`. -/
def Obligations.SelfLoopsLeaveTheStateUnchanged : Prop :=
  ∀ s : State, s.lifecycle = .ready → s.pc + 1 < Config.memSize →
    ((∃ nnn : Addr12, instrAt s = .jp nnn ∧ nnn.toNat = s.pc) ∨
      (instrAt s = .ret ∧ s.stack = [] ∧ s.pc = Config.progStart)) →
    ∀ k, run k s = .cancelled s

/-- R104: a run into zeroed memory from the address `p` executes SYS 0x000 to the top of the image, each step emitting
DiagSys(0x000) and nothing else, then faults OutOfBounds(0x1000), at 0x1000 from an even `p` and at 0xFFF from an odd
one. That the word 0x0000 is SYS 0x000 is the spec's decision D1 (log 8), the fault's fields its decision D5 (log 11). -/
def Obligations.ZeroedMemoryRunsToTheTopAndFaults : Prop :=
  ∀ s : State, s.lifecycle = .ready → s.pc ≤ Config.memSize → (∀ a, s.pc ≤ a → s.mem.read a = 0x00#8) →
    ∃ t, run ((Config.memSize - s.pc) / 2) s = .cancelled t ∧
      t.pc = (if s.pc % 2 = 0 then 0x1000 else 0xFFF) ∧
      t.events = s.events ++ List.replicate ((Config.memSize - s.pc) / 2) (.diagSys 0x000#12) ∧
      OnlyPcAndEvents s t ∧
      ∀ k, run ((Config.memSize - s.pc) / 2 + 1 + k) s = .fault (.outOfBounds t.pc 0x1000)
end

