-- ==== Sys2Proof/Laws/Encoding.lean ====
section
/-! SUPPORT. What each field reads from a word assembled in a format, how a word is assembled again from its fields,
and one decoding lemma per opcode class. -/

namespace Sys2Proof

/-! ### Fields as arithmetic -/

theorem nibble_toNat (w : Word) : (Word.nibble w).toNat = w.toNat / 4096 := by
  have := w.isLt
  simp only [Word.nibble, BitVec.extractLsb'_toNat, Nat.shiftRight_eq_div_pow]
  omega

theorem x_toNat (w : Word) : (Word.x w).toNat = w.toNat / 256 % 16 := by
  simp only [Word.x, BitVec.extractLsb'_toNat, Nat.shiftRight_eq_div_pow]

theorem y_toNat (w : Word) : (Word.y w).toNat = w.toNat / 16 % 16 := by
  simp only [Word.y, BitVec.extractLsb'_toNat, Nat.shiftRight_eq_div_pow]

theorem n_toNat (w : Word) : (Word.n w).toNat = w.toNat % 16 := by
  simp only [Word.n, BitVec.extractLsb'_toNat, Nat.shiftRight_eq_div_pow]
  omega

theorem nnn_toNat (w : Word) : (Word.nnn w).toNat = w.toNat % 4096 := by
  simp only [Word.nnn, BitVec.extractLsb'_toNat, Nat.shiftRight_eq_div_pow]
  omega

theorem kk_toNat (w : Word) : (Word.kk w).toNat = w.toNat % 256 := by
  simp only [Word.kk, BitVec.extractLsb'_toNat, Nat.shiftRight_eq_div_pow]
  omega

theorem b0_toNat (w : Word) : (Word.b0 w).toNat = w.toNat / 256 := by
  have := w.isLt
  simp only [Word.b0, BitVec.extractLsb'_toNat, Nat.shiftRight_eq_div_pow]
  omega

theorem b1_toNat (w : Word) : (Word.b1 w).toNat = w.toNat % 256 := by
  simp only [Word.b1, BitVec.extractLsb'_toNat, Nat.shiftRight_eq_div_pow]
  omega

theorem wordOfBytes_toNat (b0 b1 : Byte) : (wordOfBytes b0 b1).toNat = b0.toNat * 256 + b1.toNat := by
  have h1 := b1.isLt
  simp only [wordOfBytes, BitVec.toNat_append, Nat.shiftLeft_eq]
  rw [← Nat.shiftLeft_eq, ← Nat.shiftLeft_add_eq_or_of_lt (by simpa using h1), Nat.shiftLeft_eq]

theorem formatA_toNat (c : BitVec 4) (nnn : Addr12) : (formatA c nnn).toNat = c.toNat * 4096 + nnn.toNat := by
  have h1 := nnn.isLt
  simp only [formatA, BitVec.toNat_append]
  rw [← Nat.shiftLeft_add_eq_or_of_lt (by simpa using h1), Nat.shiftLeft_eq]

theorem formatXK_toNat (c : BitVec 4) (x : RegIdx) (kk : Byte) :
    (formatXK c x kk).toNat = c.toNat * 4096 + x.toNat * 256 + kk.toNat := by
  have h1 := kk.isLt
  have h2 := x.isLt
  simp only [formatXK, BitVec.toNat_append]
  rw [← Nat.shiftLeft_add_eq_or_of_lt (a := x.toNat) (by simpa using h1),
    ← Nat.shiftLeft_add_eq_or_of_lt (by simp only [Nat.shiftLeft_eq]; omega)]
  simp only [Nat.shiftLeft_eq]
  omega

theorem formatXY_toNat (c : BitVec 4) (x y : RegIdx) (n : BitVec 4) :
    (formatXY c x y n).toNat = c.toNat * 4096 + x.toNat * 256 + y.toNat * 16 + n.toNat := by
  have h1 := n.isLt
  have h2 := y.isLt
  have h3 := x.isLt
  simp only [formatXY, BitVec.toNat_append]
  rw [← Nat.shiftLeft_add_eq_or_of_lt (a := y.toNat) (by simpa using h1),
    ← Nat.shiftLeft_add_eq_or_of_lt (a := x.toNat) (by simp only [Nat.shiftLeft_eq]; omega),
    ← Nat.shiftLeft_add_eq_or_of_lt (by simp only [Nat.shiftLeft_eq]; omega)]
  simp only [Nat.shiftLeft_eq]
  omega

/-! ### Fields of an assembled word -/

@[simp] theorem nibble_formatA (c : BitVec 4) (nnn : Addr12) : Word.nibble (formatA c nnn) = c := by
  apply BitVec.eq_of_toNat_eq
  have := nnn.isLt
  rw [nibble_toNat, formatA_toNat]
  omega

@[simp] theorem nnn_formatA (c : BitVec 4) (nnn : Addr12) : Word.nnn (formatA c nnn) = nnn := by
  apply BitVec.eq_of_toNat_eq
  have := nnn.isLt
  rw [nnn_toNat, formatA_toNat]
  omega

@[simp] theorem nibble_formatXK (c : BitVec 4) (x : RegIdx) (kk : Byte) : Word.nibble (formatXK c x kk) = c := by
  apply BitVec.eq_of_toNat_eq
  have := x.isLt
  have := kk.isLt
  rw [nibble_toNat, formatXK_toNat]
  omega

@[simp] theorem x_formatXK (c : BitVec 4) (x : RegIdx) (kk : Byte) : Word.x (formatXK c x kk) = x := by
  apply BitVec.eq_of_toNat_eq
  have := x.isLt
  have := kk.isLt
  rw [x_toNat, formatXK_toNat]
  omega

@[simp] theorem kk_formatXK (c : BitVec 4) (x : RegIdx) (kk : Byte) : Word.kk (formatXK c x kk) = kk := by
  apply BitVec.eq_of_toNat_eq
  have := kk.isLt
  rw [kk_toNat, formatXK_toNat]
  omega

@[simp] theorem nibble_formatXY (c : BitVec 4) (x y : RegIdx) (n : BitVec 4) :
    Word.nibble (formatXY c x y n) = c := by
  apply BitVec.eq_of_toNat_eq
  have := x.isLt
  have := y.isLt
  have := n.isLt
  rw [nibble_toNat, formatXY_toNat]
  omega

@[simp] theorem x_formatXY (c : BitVec 4) (x y : RegIdx) (n : BitVec 4) : Word.x (formatXY c x y n) = x := by
  apply BitVec.eq_of_toNat_eq
  have := x.isLt
  have := y.isLt
  have := n.isLt
  rw [x_toNat, formatXY_toNat]
  omega

@[simp] theorem y_formatXY (c : BitVec 4) (x y : RegIdx) (n : BitVec 4) : Word.y (formatXY c x y n) = y := by
  apply BitVec.eq_of_toNat_eq
  have := y.isLt
  have := n.isLt
  rw [y_toNat, formatXY_toNat]
  omega

@[simp] theorem n_formatXY (c : BitVec 4) (x y : RegIdx) (n : BitVec 4) : Word.n (formatXY c x y n) = n := by
  apply BitVec.eq_of_toNat_eq
  have := n.isLt
  rw [n_toNat, formatXY_toNat]
  omega

/-! ### A word assembled again from its fields -/

@[simp] theorem formatA_fields (w : Word) : formatA (Word.nibble w) (Word.nnn w) = w := by
  apply BitVec.eq_of_toNat_eq
  rw [formatA_toNat, nibble_toNat, nnn_toNat]
  omega

@[simp] theorem formatXK_fields (w : Word) : formatXK (Word.nibble w) (Word.x w) (Word.kk w) = w := by
  apply BitVec.eq_of_toNat_eq
  rw [formatXK_toNat, nibble_toNat, x_toNat, kk_toNat]
  omega

@[simp] theorem formatXY_fields (w : Word) : formatXY (Word.nibble w) (Word.x w) (Word.y w) (Word.n w) = w := by
  apply BitVec.eq_of_toNat_eq
  rw [formatXY_toNat, nibble_toNat, x_toNat, y_toNat, n_toNat]
  omega

@[simp] theorem wordOfBytes_split (w : Word) : wordOfBytes (Word.b0 w) (Word.b1 w) = w := by
  apply BitVec.eq_of_toNat_eq
  rw [wordOfBytes_toNat, b0_toNat, b1_toNat]
  omega

@[simp] theorem b0_wordOfBytes (b0 b1 : Byte) : Word.b0 (wordOfBytes b0 b1) = b0 := by
  apply BitVec.eq_of_toNat_eq
  have := b1.isLt
  rw [b0_toNat, wordOfBytes_toNat]
  omega

@[simp] theorem b1_wordOfBytes (b0 b1 : Byte) : Word.b1 (wordOfBytes b0 b1) = b1 := by
  apply BitVec.eq_of_toNat_eq
  have := b1.isLt
  rw [b1_toNat, wordOfBytes_toNat]
  omega

/-! ### One decoding lemma per class -/

/-- A word outside class 0 is neither of the zero-operand words. -/
theorem not_zeroOperand {w : Word} (h : Word.nibble w ≠ 0x0#4) : w ≠ 0x00E0#16 ∧ w ≠ 0x00EE#16 := by
  constructor <;> (rintro rfl; exact h (by decide))

theorem decodeWord_cls : decodeWord 0x00E0#16 = .cls := rfl

theorem decodeWord_ret : decodeWord 0x00EE#16 = .ret := rfl

theorem decodeWord_class0 {w : Word} (h : Word.nibble w = 0x0#4) (h1 : w ≠ 0x00E0#16) (h2 : w ≠ 0x00EE#16) :
    decodeWord w = .sys (Word.nnn w) := by
  simp [decodeWord, h, h1, h2]

theorem decodeWord_class1 {w : Word} (h : Word.nibble w = 0x1#4) : decodeWord w = .jp (Word.nnn w) := by
  have hz := not_zeroOperand (w := w) (by rw [h]; decide)
  simp [decodeWord, h, hz.1, hz.2]

theorem decodeWord_class2 {w : Word} (h : Word.nibble w = 0x2#4) : decodeWord w = .call (Word.nnn w) := by
  have hz := not_zeroOperand (w := w) (by rw [h]; decide)
  simp [decodeWord, h, hz.1, hz.2]

theorem decodeWord_class3 {w : Word} (h : Word.nibble w = 0x3#4) : decodeWord w = .seImm (Word.x w) (Word.kk w) := by
  have hz := not_zeroOperand (w := w) (by rw [h]; decide)
  simp [decodeWord, h, hz.1, hz.2]

theorem decodeWord_class4 {w : Word} (h : Word.nibble w = 0x4#4) : decodeWord w = .sneImm (Word.x w) (Word.kk w) := by
  have hz := not_zeroOperand (w := w) (by rw [h]; decide)
  simp [decodeWord, h, hz.1, hz.2]

theorem decodeWord_class5 {w : Word} (h : Word.nibble w = 0x5#4) : decodeWord w = .seReg (Word.x w) (Word.y w) := by
  have hz := not_zeroOperand (w := w) (by rw [h]; decide)
  simp [decodeWord, h, hz.1, hz.2]

theorem decodeWord_class6 {w : Word} (h : Word.nibble w = 0x6#4) : decodeWord w = .ldImm (Word.x w) (Word.kk w) := by
  have hz := not_zeroOperand (w := w) (by rw [h]; decide)
  simp [decodeWord, h, hz.1, hz.2]

theorem decodeWord_class7 {w : Word} (h : Word.nibble w = 0x7#4) : decodeWord w = .addImm (Word.x w) (Word.kk w) := by
  have hz := not_zeroOperand (w := w) (by rw [h]; decide)
  simp [decodeWord, h, hz.1, hz.2]

/-- A word with its top bit set is unrecognized. -/
theorem decodeWord_classU {w : Word} (h : 0x8000 ≤ w.toNat) : decodeWord w = .unrecognized w := by
  have key : ∀ c : BitVec 4, c.toNat < 8 → Word.nibble w ≠ c := by
    intro c hc he
    have := nibble_toNat w
    rw [he] at this
    omega
  have hz := not_zeroOperand (key 0x0#4 (by decide))
  simp [decodeWord, hz.1, hz.2, key 0x0#4 (by decide), key 0x1#4 (by decide), key 0x2#4 (by decide),
    key 0x3#4 (by decide), key 0x4#4 (by decide), key 0x5#4 (by decide), key 0x6#4 (by decide), key 0x7#4 (by decide)]

/-- The unrecognized words by their top bit. -/
theorem unrecognizedWordOk_iff (w : Word) : unrecognizedWordOk w = true ↔ 0x8000 ≤ w.toNat := by
  simp [unrecognizedWordOk, BitVec.msb_eq_decide]

theorem sysTargetOk_iff (nnn : Addr12) : sysTargetOk nnn = true ↔ nnn ≠ 0x0E0#12 ∧ nnn ≠ 0x0EE#12 := by
  simp [sysTargetOk]

/-- A sequence of two bytes or more decodes to the instruction of its first word. -/
@[simp] theorem decode_cons_cons (b0 b1 : Byte) (rest : List Byte) :
    decode (b0 :: b1 :: rest) = .ok (decodeBytes b0 b1, rest) := rfl

end Sys2Proof
end

