-- ==== Sys2Proof/Laws/Memory.lean ====
section
/-! SUPPORT. The laws of the memory image: read after write, and every operation keeps the canonical form. -/

namespace Sys2Proof.Machine

/-- An address below every listed one reads as the unlisted byte. -/
theorem Memory.read_of_lt {m : Memory} {a : Nat} (h : ∀ p ∈ m, a < p.1) : m.read a = Memory.unlisted := by
  induction m with
  | nil => rfl
  | cons p m ih =>
    obtain ⟨k, w⟩ := p
    have hk : a < k := h (k, w) (by simp)
    have hne : a ≠ k := by omega
    simp only [Memory.read, if_neg hne]
    exact ih (fun q hq => h q (by simp [hq]))

/-- The tail of a canonical memory is canonical. -/
theorem Memory.wf_tail {p : Host.Cell} {m : Memory} (h : Memory.wf (p :: m)) : m.wf :=
  ⟨(List.pairwise_cons.mp h.1).2, fun q hq => h.2 q (by simp [hq])⟩

/-- Reading back the address just written gives the value written. -/
theorem Memory.read_write_same {m : Memory} (h : m.wf) (a : Nat) (v : Byte) : (m.write a v).read a = v := by
  induction m with
  | nil =>
    unfold Memory.write
    split
    · next hv => simp [Memory.read, hv]
    · simp [Memory.read]
  | cons p m ih =>
    obtain ⟨k, w⟩ := p
    have hlt : ∀ q ∈ m, k < q.1 := (List.pairwise_cons.mp h.1).1
    unfold Memory.write
    split
    · next hak =>
      split
      · next hv =>
        rw [hv]
        exact Memory.read_of_lt (fun q hq => by
          rcases List.mem_cons.mp hq with rfl | hq
          · exact hak
          · have := hlt q hq; omega)
      · simp [Memory.read]
    · split
      · next hak =>
        split
        · next hv => rw [hv, hak]; exact Memory.read_of_lt hlt
        · simp [Memory.read, hak]
      · next hak =>
        simp only [Memory.read, if_neg hak]
        exact ih (Memory.wf_tail h)

/-- A write leaves every other address as it was. -/
theorem Memory.read_write_other {m : Memory} {a b : Nat} (hne : b ≠ a) (v : Byte) :
    (m.write a v).read b = m.read b := by
  induction m with
  | nil =>
    unfold Memory.write
    split
    · rfl
    · simp [Memory.read, hne]
  | cons p m ih =>
    obtain ⟨k, w⟩ := p
    unfold Memory.write
    split
    · split
      · rfl
      · simp [Memory.read, hne]
    · split
      · next hak =>
        subst hak
        split
        · simp [Memory.read, hne]
        · simp [Memory.read, hne]
      · simp only [Memory.read, ih]

/-- The addresses a write lists are the old ones and its own. -/
theorem Memory.mem_write {m : Memory} {a : Nat} {v : Byte} {p : Host.Cell} (h : p ∈ m.write a v) :
    p ∈ m ∨ (p = (a, v) ∧ v ≠ Memory.unlisted) := by
  induction m with
  | nil =>
    unfold Memory.write at h
    split at h
    · simp at h
    · next hv => exact .inr ⟨by simpa using h, hv⟩
  | cons q m ih =>
    obtain ⟨k, w⟩ := q
    unfold Memory.write at h
    split at h
    · split at h
      · exact .inl h
      · next hv =>
        rcases List.mem_cons.mp h with rfl | h
        · exact .inr ⟨rfl, hv⟩
        · exact .inl h
    · split at h
      · next hak =>
        split at h
        · exact .inl (by simp [h])
        · next hv =>
          rcases List.mem_cons.mp h with rfl | h
          · exact .inr ⟨by rw [hak], hv⟩
          · exact .inl (by simp [h])
      · rcases List.mem_cons.mp h with rfl | h
        · exact .inl (by simp)
        · rcases ih h with h | h
          · exact .inl (by simp [h])
          · exact .inr h

/-- A write inside the image keeps the canonical form. -/
theorem Memory.write_wf {m : Memory} (h : m.wf) {a : Nat} (ha : a < Config.memSize) (v : Byte) :
    (m.write a v).wf := by
  refine ⟨?_, fun p hp => ?_⟩
  · induction m with
    | nil =>
      unfold Memory.write
      split
      · exact .nil
      · simp
    | cons q m ih =>
      obtain ⟨k, w⟩ := q
      have hpw := List.pairwise_cons.mp h.1
      unfold Memory.write
      split
      · next hak =>
        split
        · exact h.1
        · refine List.pairwise_cons.mpr ⟨fun p hp => ?_, h.1⟩
          rcases List.mem_cons.mp hp with rfl | hp
          · exact hak
          · exact Nat.lt_trans hak (hpw.1 p hp)
      · split
        · split
          · exact hpw.2
          · exact List.pairwise_cons.mpr ⟨hpw.1, hpw.2⟩
        · next h1 h2 =>
          refine List.pairwise_cons.mpr ⟨fun p hp => ?_, ih (Memory.wf_tail h)⟩
          rcases Memory.mem_write hp with hp | ⟨rfl, -⟩
          · exact hpw.1 p hp
          · show k < a
            omega
  · rcases Memory.mem_write hp with hp | ⟨rfl, hv⟩
    · exact h.2 p hp
    · exact ⟨ha, hv⟩

/-- Writing consecutive bytes inside the image keeps the canonical form. -/
theorem Memory.writeBytes_wf {m : Memory} (h : m.wf) {a : Nat} {bs : List Byte}
    (hb : a + bs.length ≤ Config.memSize) : (m.writeBytes a bs).wf := by
  induction bs generalizing m a with
  | nil => exact h
  | cons b bs ih =>
    simp only [List.length_cons] at hb
    exact ih (Memory.write_wf h (by omega) b) (by omega)

/-- Writing consecutive bytes leaves every address outside them as it was. -/
theorem Memory.read_writeBytes_other {m : Memory} {a c : Nat} {bs : List Byte} (h : c < a ∨ a + bs.length ≤ c) :
    (m.writeBytes a bs).read c = m.read c := by
  induction bs generalizing m a with
  | nil => rfl
  | cons b bs ih =>
    simp only [List.length_cons] at h
    show ((m.write a b).writeBytes (a + 1) bs).read c = m.read c
    rw [ih (by omega), Memory.read_write_other (by omega)]

/-- Reading inside consecutive written bytes gives the byte written there. -/
theorem Memory.read_writeBytes_inside {m : Memory} (h : m.wf) {a k : Nat} {bs : List Byte}
    (hb : a + bs.length ≤ Config.memSize) (hk : k < bs.length) :
    (m.writeBytes a bs).read (a + k) = bs[k] := by
  induction bs generalizing m a k with
  | nil => simp at hk
  | cons b bs ih =>
    simp only [List.length_cons] at hb hk
    have hwf := Memory.write_wf h (a := a) (by omega) b
    cases k with
    | zero =>
      show ((m.write a b).writeBytes (a + 1) bs).read a = b
      rw [Memory.read_writeBytes_other (by omega), Memory.read_write_same h]
    | succ k =>
      have := ih hwf (a := a + 1) (k := k) (by omega) (by omega)
      rw [show a + (k + 1) = a + 1 + k by omega]
      exact this

end Sys2Proof.Machine
end

