-- ==== Sys2Proof/Laws/State.lean ====
section
/-! SUPPORT. One lemma per field per update of State, and the laws of the register file. -/

namespace Sys2Proof.Machine

/-! ### emit -/

@[simp] theorem emit_mem (e : Event) (s : State) : (emit e s).mem = s.mem := rfl
@[simp] theorem emit_pc (e : Event) (s : State) : (emit e s).pc = s.pc := rfl
@[simp] theorem emit_V (e : Event) (s : State) : (emit e s).V = s.V := rfl
@[simp] theorem emit_stack (e : Event) (s : State) : (emit e s).stack = s.stack := rfl
@[simp] theorem emit_I (e : Event) (s : State) : (emit e s).I = s.I := rfl
@[simp] theorem emit_lifecycle (e : Event) (s : State) : (emit e s).lifecycle = s.lifecycle := rfl
@[simp] theorem emit_displayAttached (e : Event) (s : State) : (emit e s).displayAttached = s.displayAttached := rfl
@[simp] theorem emit_events (e : Event) (s : State) : (emit e s).events = s.events ++ [e] := rfl
@[simp] theorem getReg_emit (e : Event) (s : State) (r : RegIdx) : getReg (emit e s) r = getReg s r := rfl

/-! ### setReg -/

@[simp] theorem setReg_mem (i : RegIdx) (v : Byte) (s : State) : (setReg i v s).mem = s.mem := rfl
@[simp] theorem setReg_pc (i : RegIdx) (v : Byte) (s : State) : (setReg i v s).pc = s.pc := rfl
@[simp] theorem setReg_stack (i : RegIdx) (v : Byte) (s : State) : (setReg i v s).stack = s.stack := rfl
@[simp] theorem setReg_I (i : RegIdx) (v : Byte) (s : State) : (setReg i v s).I = s.I := rfl
@[simp] theorem setReg_lifecycle (i : RegIdx) (v : Byte) (s : State) : (setReg i v s).lifecycle = s.lifecycle := rfl
@[simp] theorem setReg_displayAttached (i : RegIdx) (v : Byte) (s : State) :
    (setReg i v s).displayAttached = s.displayAttached := rfl
@[simp] theorem setReg_events (i : RegIdx) (v : Byte) (s : State) : (setReg i v s).events = s.events := rfl

/-! ### setIndex -/

@[simp] theorem setIndex_mem (v : Word) (s : State) : (setIndex v s).mem = s.mem := rfl
@[simp] theorem setIndex_pc (v : Word) (s : State) : (setIndex v s).pc = s.pc := rfl
@[simp] theorem setIndex_V (v : Word) (s : State) : (setIndex v s).V = s.V := rfl
@[simp] theorem setIndex_stack (v : Word) (s : State) : (setIndex v s).stack = s.stack := rfl
@[simp] theorem setIndex_I (v : Word) (s : State) : (setIndex v s).I = v := rfl
@[simp] theorem setIndex_lifecycle (v : Word) (s : State) : (setIndex v s).lifecycle = s.lifecycle := rfl
@[simp] theorem setIndex_displayAttached (v : Word) (s : State) :
    (setIndex v s).displayAttached = s.displayAttached := rfl
@[simp] theorem setIndex_events (v : Word) (s : State) : (setIndex v s).events = s.events := rfl

/-! ### teardown -/

@[simp] theorem teardown_mem (s : State) : (teardown s).mem = s.mem := rfl
@[simp] theorem teardown_pc (s : State) : (teardown s).pc = s.pc := rfl
@[simp] theorem teardown_V (s : State) : (teardown s).V = s.V := rfl
@[simp] theorem teardown_stack (s : State) : (teardown s).stack = s.stack := rfl
@[simp] theorem teardown_I (s : State) : (teardown s).I = s.I := rfl
@[simp] theorem teardown_lifecycle (s : State) : (teardown s).lifecycle = .closed := rfl
@[simp] theorem teardown_displayAttached (s : State) : (teardown s).displayAttached = s.displayAttached := rfl
@[simp] theorem teardown_events (s : State) : (teardown s).events = s.events := rfl

/-! ### placeWord -/

@[simp] theorem placeWord_pc (w : Word) (s : State) : (placeWord w s).pc = fetchHome s := rfl
@[simp] theorem placeWord_lifecycle (w : Word) (s : State) : (placeWord w s).lifecycle = .ready := rfl
@[simp] theorem placeWord_mem (w : Word) (s : State) :
    (placeWord w s).mem = s.mem.writeBytes (fetchHome s) [w.b0, w.b1] := rfl
@[simp] theorem placeWord_V (w : Word) (s : State) : (placeWord w s).V = s.V := rfl
@[simp] theorem placeWord_stack (w : Word) (s : State) : (placeWord w s).stack = s.stack := rfl
@[simp] theorem placeWord_I (w : Word) (s : State) : (placeWord w s).I = s.I := rfl
@[simp] theorem placeWord_displayAttached (w : Word) (s : State) :
    (placeWord w s).displayAttached = s.displayAttached := rfl
@[simp] theorem placeWord_events (w : Word) (s : State) : (placeWord w s).events = s.events := rfl

/-! ### A register depends on `V` alone -/

/-- Any update that leaves `V` leaves every register. -/
@[simp] theorem getReg_keepV (s : State) (m : Memory) (pc : Nat) (st : List Nat) (I : Word) (l : Lifecycle) (d : Bool)
    (ev : List Event) (r : RegIdx) : getReg ⟨m, pc, s.V, st, I, l, d, ev⟩ r = getReg s r := rfl

/-- Reading `V[r]` from the field is reading register `r`. -/
theorem getReg_eq (s : State) (r : RegIdx) : getReg s r = s.V[r.toNat]'r.isLt := rfl

/-! ### The register file (R17) -/

@[simp] theorem getReg_setReg_same (i : RegIdx) (v : Byte) (s : State) : getReg (setReg i v s) i = v := by
  simp [getReg, setReg]

@[simp] theorem getReg_setReg_other {i r : RegIdx} (h : r ≠ i) (v : Byte) (s : State) :
    getReg (setReg i v s) r = getReg s r := by
  have hne : i.toNat ≠ r.toNat := fun e => h (BitVec.eq_of_toNat_eq e.symm)
  simp only [getReg, setReg]
  exact Vector.getElem_set_ne (hi := i.isLt) (hj := r.isLt) hne

/-- A write to a register, read back anywhere. -/
theorem getReg_setReg (i r : RegIdx) (v : Byte) (s : State) :
    getReg (setReg i v s) r = if r = i then v else getReg s r := by
  split
  · next h => rw [h, getReg_setReg_same]
  · next h => exact getReg_setReg_other h v s

/-- Two register files with equal registers are equal. -/
theorem V_ext {s t : State} (h : ∀ r, getReg t r = getReg s r) : t.V = s.V := by
  apply Vector.ext
  intro i hi
  have hlt : i < 2 ^ 4 := hi
  have hr : (BitVec.ofNat 4 i).toNat = i := by
    rw [BitVec.toNat_ofNat]
    exact Nat.mod_eq_of_lt hlt
  have := h (BitVec.ofNat 4 i)
  simp only [getReg, hr] at this
  exact this

/-- The narrowed sum is the wrapping sum of 8-bit vectors. -/
theorem addWrap_eq_add (a b : Byte) : addWrap a b = a + b := by
  apply BitVec.eq_of_toNat_eq
  simp [addWrap, BitVec.toNat_add]

@[simp] theorem addWrap_toNat (a b : Byte) : (addWrap a b).toNat = (a.toNat + b.toNat) % 256 := by
  simp [addWrap]

@[simp] theorem equalCondition_iff (a b : Byte) : equalCondition a b = true ↔ a = b := by
  simp [equalCondition]

@[simp] theorem differCondition_iff (a b : Byte) : differCondition a b = true ↔ a ≠ b := by
  simp [differCondition]

end Sys2Proof.Machine
end

