-- ==== Sys2Proof/Laws/Ops.lean ====
section
/-! SUPPORT. One specification lemma per shared operation: everything it can do, for callers to cite. -/

namespace Sys2Proof.Machine

/-! ### andThen and raise -/

@[simp] theorem andThen_next (s : State) (k : State → Result) : andThen (.next s) k = k s := rfl
@[simp] theorem andThen_fault (f : Fault) (k : State → Result) : andThen (.fault f) k = .fault f := rfl
@[simp] theorem andThen_refused (r : Refusal) (k : State → Result) : andThen (.refused r) k = .refused r := rfl
@[simp] theorem andThen_raise (f : Fault) (k : State → Result) : andThen (raise f) k = .fault f := rfl
@[simp] theorem raise_eq (f : Fault) : raise f = .fault f := rfl

/-- A sequence that completes completed both parts. -/
theorem andThen_eq_next {o : Result} {k : State → Result} {t : State} (h : andThen o k = .next t) :
    ∃ s, o = .next s ∧ k s = .next t := by
  cases o with
  | next s => exact ⟨s, rfl, h⟩
  | fault f => simp at h
  | refused r => simp at h

/-! ### The cursor -/

theorem readByte_inside {s : State} (h : s.pc < Config.memSize) (c : Nat) :
    readByte c s = .ok (s.mem.read s.pc, { s with pc := s.pc + 1 }) := by
  simp [readByte, Nat.not_le.mpr h]

theorem readByte_outside {s : State} (h : Config.memSize ≤ s.pc) (c : Nat) :
    readByte c s = .error (.outOfBounds c s.pc) := by
  simp [readByte, h]

theorem seek_inside {a : Nat} (h : a < Config.memSize) (s : State) : seek a s = .next { s with pc := a } := by
  simp [seek, Nat.not_le.mpr h]

theorem seek_outside {a : Nat} (h : Config.memSize ≤ a) (s : State) :
    seek a s = .fault (.invalidAddress (instrStart s) a) := by
  simp [seek, h]

/-- A seek that completes went inside the image and moved the cursor only. -/
theorem seek_eq_next {a : Nat} {s t : State} (h : seek a s = .next t) :
    a < Config.memSize ∧ t = { s with pc := a } := by
  by_cases ha : a < Config.memSize
  · rw [seek_inside ha] at h
    exact ⟨ha, (Host.Outcome.next.inj h).symm⟩
  · rw [seek_outside (Nat.not_lt.mp ha)] at h
    exact nomatch h

theorem advance_inside {n : Nat} {s : State} (h : s.pc + n < Config.memSize) :
    advance n s = .next { s with pc := s.pc + n } := by
  simp [advance, Nat.not_le.mpr h]

theorem advance_outside {n : Nat} {s : State} (h : Config.memSize ≤ s.pc + n) :
    advance n s = .fault (.invalidAddress (instrStart s) (s.pc + n)) := by
  simp [advance, h]

/-- An advance that completes stayed inside the image and moved the cursor only. -/
theorem advance_eq_next {n : Nat} {s t : State} (h : advance n s = .next t) :
    s.pc + n < Config.memSize ∧ t = { s with pc := s.pc + n } := by
  by_cases ha : s.pc + n < Config.memSize
  · rw [advance_inside ha] at h
    exact ⟨ha, (Host.Outcome.next.inj h).symm⟩
  · rw [advance_outside (Nat.not_lt.mp ha)] at h
    exact nomatch h

/-! ### The stack -/

theorem push_room {s : State} (h : s.stack.length ≠ Config.stackDepth) (a : Nat) :
    push a s = .next { s with stack := s.stack ++ [a] } := by
  simp [push, h]

theorem push_full {s : State} (h : s.stack.length = Config.stackDepth) (a : Nat) :
    push a s = .fault (.stackOverflow (instrStart s) a) := by
  simp [push, h]

theorem pop_empty {s : State} (h : s.stack = []) : pop s = none := by
  simp [pop, h]

theorem pop_concat {s : State} {st : List Nat} {a : Nat} (h : s.stack = st ++ [a]) :
    pop s = some (a, { s with stack := st }) := by
  simp [pop, h]

/-! ### Skips -/

@[simp] theorem skipIf_false (s : State) : skipIf false s = .next s := rfl

/-- A taken skip is an advance by one instruction width. -/
@[simp] theorem skipIf_true (s : State) : skipIf true s = advance Config.instrBytes s := rfl

/-! ### Fetch -/

/-- With two bytes of the image at the cursor, the fetch reads both and moves past them. -/
theorem fetch_inside {s : State} (h : s.pc + 1 < Config.memSize) :
    fetch s = .ok (s.mem.read s.pc, s.mem.read (s.pc + 1), { s with pc := s.pc + 2 }) := by
  simp only [fetch, readByte_inside (s := s) (by omega)]
  rw [readByte_inside (s := { s with pc := s.pc + 1 }) (by simpa using h)]

/-- With one byte left, the second read is out of bounds. -/
theorem fetch_last {s : State} (h : s.pc + 1 = Config.memSize) :
    fetch s = .error (.outOfBounds s.pc (s.pc + 1)) := by
  simp only [fetch, readByte_inside (s := s) (by omega)]
  rw [readByte_outside (s := { s with pc := s.pc + 1 }) (by simpa using h.ge)]

/-- With no byte left, the first read is out of bounds. -/
theorem fetch_outside {s : State} (h : Config.memSize ≤ s.pc) : fetch s = .error (.outOfBounds s.pc s.pc) := by
  simp only [fetch, readByte_outside h]

/-- Where `placeWord` puts a word there is room for it. -/
theorem fetchHome_room (s : State) : fetchHome s + 1 < Config.memSize := by
  unfold fetchHome
  split
  · assumption
  · decide

/-! ### Load -/

@[simp] theorem load_pc (bs : List Byte) (s : State) : (load bs s).pc = Config.progStart := by
  unfold load; simp only; split <;> rfl

@[simp] theorem load_mem (bs : List Byte) (s : State) :
    (load bs s).mem = s.mem.writeBytes Config.progStart (bs.take loadRoom) := by
  unfold load; simp only; split <;> rfl

@[simp] theorem load_V (bs : List Byte) (s : State) : (load bs s).V = s.V := by
  unfold load; simp only; split <;> rfl

@[simp] theorem load_stack (bs : List Byte) (s : State) : (load bs s).stack = s.stack := by
  unfold load; simp only; split <;> rfl

@[simp] theorem load_I (bs : List Byte) (s : State) : (load bs s).I = s.I := by
  unfold load; simp only; split <;> rfl

@[simp] theorem load_lifecycle (bs : List Byte) (s : State) : (load bs s).lifecycle = s.lifecycle := by
  unfold load; simp only; split <;> rfl

@[simp] theorem load_displayAttached (bs : List Byte) (s : State) :
    (load bs s).displayAttached = s.displayAttached := by
  unfold load; simp only; split <;> rfl

@[simp] theorem load_events (bs : List Byte) (s : State) :
    (load bs s).events = s.events ++ (if bs.length > loadRoom then [.diagTruncation] else []) := by
  unfold load; simp only; split <;> simp [emit]

/-- The copied part of a program image fits above `PROG_START`. -/
theorem load_fits (bs : List Byte) : Config.progStart + (bs.take loadRoom).length ≤ Config.memSize := by
  have : (bs.take loadRoom).length ≤ loadRoom := List.length_take_le _ _
  have hr : loadRoom = 3584 := rfl
  have hp : Config.progStart = 512 := rfl
  have hm : Config.memSize = 4096 := rfl
  omega

/-- Loading keeps the canonical form of the memory. -/
theorem load_mem_wf {s : State} (h : s.mem.wf) (bs : List Byte) : (load bs s).mem.wf := by
  rw [load_mem]
  exact Memory.writeBytes_wf h (load_fits bs)

/-- Placing a word for the next fetch keeps the canonical form of the memory. -/
theorem placeWord_mem_wf {s : State} (h : s.mem.wf) (w : Word) : (placeWord w s).mem.wf := by
  rw [placeWord_mem]
  exact Memory.writeBytes_wf h (by have := fetchHome_room s; simp only [List.length_cons, List.length_nil]; omega)

@[simp] theorem new_mem (p : List Byte) (b : Bool) :
    (new p b).mem = Memory.writeBytes [] Config.progStart (p.take loadRoom) := by
  simp [new, cleared]

@[simp] theorem new_pc (p : List Byte) (b : Bool) : (new p b).pc = Config.progStart := by simp [new]
@[simp] theorem new_V (p : List Byte) (b : Bool) : (new p b).V = Vector.replicate Config.nregs 0x00#8 := by
  simp [new, cleared]
@[simp] theorem new_stack (p : List Byte) (b : Bool) : (new p b).stack = [] := by simp [new, cleared]
@[simp] theorem new_I (p : List Byte) (b : Bool) : (new p b).I = 0x0000#16 := by simp [new, cleared]
@[simp] theorem new_lifecycle (p : List Byte) (b : Bool) : (new p b).lifecycle = .ready := rfl
@[simp] theorem new_displayAttached (p : List Byte) (b : Bool) : (new p b).displayAttached = b := by
  simp [new, cleared]
@[simp] theorem new_events (p : List Byte) (b : Bool) :
    (new p b).events = if p.length > loadRoom then [.diagTruncation] else [] := by
  simp [new, cleared]

end Sys2Proof.Machine
end

