-- ==== Sys2Proof/Laws/PerInstr.lean ====
section
/-! SUPPORT. Facts made per instruction, about the instruction as syntax. EncodedClass: the top nibble of the encoding
is the opcode class that 30_encoding.md R50 and R55 give the instruction, and for the unrecognized path it is 8 or
more. -/

namespace Sys2Proof.Laws.EncodedClass

/-- The opcode class of an instruction, R50; the unrecognized path has the classes 8 to F. -/
def classOk : Instr → BitVec 4 → Bool
  | .cls, c => c == 0x0#4
  | .ret, c => c == 0x0#4
  | .sys _, c => c == 0x0#4
  | .jp _, c => c == 0x1#4
  | .call _, c => c == 0x2#4
  | .seImm _ _, c => c == 0x3#4
  | .sneImm _ _, c => c == 0x4#4
  | .seReg _ _, c => c == 0x5#4
  | .ldImm _ _, c => c == 0x6#4
  | .addImm _ _, c => c == 0x7#4
  | .unrecognized _, c => decide (8 ≤ c.toNat)

/-- A well-formed instruction is encoded in its class. -/
def Statement (i : Instr) : Prop := i.wellFormed = true → classOk i (Word.nibble (encode i)) = true

theorem cls : Statement .cls := fun _ => rfl

theorem ret : Statement .ret := fun _ => rfl

theorem sys (nnn : Addr12) : Statement (.sys nnn) := fun _ => beq_iff_eq.mpr (nibble_formatA _ _)

theorem jp (nnn : Addr12) : Statement (.jp nnn) := fun _ => beq_iff_eq.mpr (nibble_formatA _ _)

theorem call (nnn : Addr12) : Statement (.call nnn) := fun _ => beq_iff_eq.mpr (nibble_formatA _ _)

theorem seImm (x : RegIdx) (kk : Byte) : Statement (.seImm x kk) := fun _ => beq_iff_eq.mpr (nibble_formatXK _ _ _)

theorem sneImm (x : RegIdx) (kk : Byte) : Statement (.sneImm x kk) := fun _ => beq_iff_eq.mpr (nibble_formatXK _ _ _)

theorem seReg (x y : RegIdx) : Statement (.seReg x y) := fun _ => beq_iff_eq.mpr (nibble_formatXY _ _ _ _)

theorem ldImm (x : RegIdx) (kk : Byte) : Statement (.ldImm x kk) := fun _ => beq_iff_eq.mpr (nibble_formatXK _ _ _)

theorem addImm (x : RegIdx) (kk : Byte) : Statement (.addImm x kk) := fun _ => beq_iff_eq.mpr (nibble_formatXK _ _ _)

theorem unrecognized (w : Word) : Statement (.unrecognized w) := fun h =>
  decide_eq_true ((nibble_toNat w).symm ▸ (Nat.le_div_iff_mul_le (by decide)).mpr ((unrecognizedWordOk_iff w).mp h))

end Sys2Proof.Laws.EncodedClass
end

