-- ==== Sys2Proof/Laws/Step.lean ====
section
/-! SUPPORT. What one step can do: the lifecycle check, the fetch, and one inversion lemma per shape of instruction. -/

namespace Sys2Proof.Machine

/-! ### step -/

/-- A Ready machine with two bytes at the cursor executes the instruction they decode to. -/
theorem step_exec {s : State} (hr : s.lifecycle = .ready) (h : s.pc + 1 < Config.memSize) :
    step s = exec (instrAt s) { s with pc := s.pc + 2 } := by
  simp only [step, hr, fetch_inside h]
  rfl

theorem step_last {s : State} (hr : s.lifecycle = .ready) (h : s.pc + 1 = Config.memSize) :
    step s = .fault (.outOfBounds s.pc (s.pc + 1)) := by
  simp only [step, hr, fetch_last h, raise_eq]

theorem step_outside {s : State} (hr : s.lifecycle = .ready) (h : Config.memSize ≤ s.pc) :
    step s = .fault (.outOfBounds s.pc s.pc) := by
  simp only [step, hr, fetch_outside h, raise_eq]

theorem step_notReady {s : State} (hr : s.lifecycle ≠ .ready) : step s = .refused (.notReady s.lifecycle) := by
  unfold step
  split
  · next h => rw [h]
  · next h => rw [h]
  · next h => exact absurd h hr

/-- A step that completes ran the instruction at the cursor of a Ready machine. -/
theorem step_eq_next {s t : State} (h : step s = .next t) :
    s.lifecycle = .ready ∧ s.pc + 1 < Config.memSize ∧ exec (instrAt s) { s with pc := s.pc + 2 } = .next t := by
  by_cases hr : s.lifecycle = .ready
  · rcases Nat.lt_trichotomy (s.pc + 1) Config.memSize with hlt | heq | hgt
    · exact ⟨hr, hlt, by rw [← step_exec hr hlt]; exact h⟩
    · rw [step_last hr heq] at h; exact nomatch h
    · rw [step_outside hr (by omega)] at h; exact nomatch h
  · rw [step_notReady hr] at h; exact nomatch h

/-! ### exec, by what an instruction does -/

@[simp] theorem exec_cls (s : State) : exec .cls s = .next (emit .clsHook s) := rfl
@[simp] theorem exec_sys (nnn : Addr12) (s : State) : exec (.sys nnn) s = .next (emit (.diagSys nnn) s) := rfl
@[simp] theorem exec_unrecognized (w : Word) (s : State) :
    exec (.unrecognized w) s = .next (emit (.diagUnrecognized w) s) := rfl
@[simp] theorem exec_ldImm (x : RegIdx) (kk : Byte) (s : State) : exec (.ldImm x kk) s = .next (setReg x kk s) := rfl
@[simp] theorem exec_addImm (x : RegIdx) (kk : Byte) (s : State) :
    exec (.addImm x kk) s = .next (setReg x (addWrap (getReg s x) kk) s) := rfl

/-- JP never faults: a 12-bit target is inside the image (R35, R66). -/
@[simp] theorem exec_jp (nnn : Addr12) (s : State) : exec (.jp nnn) s = .next { s with pc := nnn.toNat } :=
  seek_inside (show nnn.toNat < Config.memSize from nnn.isLt) s

theorem exec_call_room {s : State} (h : s.stack.length ≠ Config.stackDepth) (nnn : Addr12) :
    exec (.call nnn) s = .next { s with pc := nnn.toNat, stack := s.stack ++ [s.pc] } := by
  show andThen (push s.pc s) (seek nnn.toNat) = _
  rw [push_room h, andThen_next, seek_inside (show nnn.toNat < Config.memSize from nnn.isLt)]

theorem exec_call_full {s : State} (h : s.stack.length = Config.stackDepth) (nnn : Addr12) :
    exec (.call nnn) s = .fault (.stackOverflow (instrStart s) s.pc) := by
  show andThen (push s.pc s) (seek nnn.toNat) = _
  rw [push_full h, andThen_fault]

theorem exec_ret_empty {s : State} (h : s.stack = []) :
    exec .ret s = .next { s with pc := Config.progStart } := by
  show execRet s = _
  rw [execRet, pop_empty h]
  exact seek_inside (by decide) s

theorem exec_ret_inside {s : State} {st : List Nat} {a : Nat} (h : s.stack = st ++ [a]) (ha : a < Config.memSize) :
    exec .ret s = .next { s with pc := a, stack := st } := by
  show execRet s = _
  rw [execRet, pop_concat h]
  exact seek_inside ha _

theorem exec_ret_outside {s : State} {st : List Nat} {a : Nat} (h : s.stack = st ++ [a]) (ha : Config.memSize ≤ a) :
    exec .ret s = .fault (.invalidAddress (instrStart s) a) := by
  show execRet s = _
  rw [execRet, pop_concat h]
  exact seek_outside ha _

/-- The skips as one operation on a condition. -/
theorem exec_seImm (x : RegIdx) (kk : Byte) (s : State) :
    exec (.seImm x kk) s = skipIf (equalCondition (getReg s x) kk) s := rfl
theorem exec_sneImm (x : RegIdx) (kk : Byte) (s : State) :
    exec (.sneImm x kk) s = skipIf (differCondition (getReg s x) kk) s := rfl
theorem exec_seReg (x y : RegIdx) (s : State) :
    exec (.seReg x y) s = skipIf (equalCondition (getReg s x) (getReg s y)) s := rfl

/-- A stack is empty or has a top entry. -/
theorem stack_cases (s : State) : s.stack = [] ∨ ∃ st a, s.stack = st ++ [a] := by
  rcases List.eq_nil_or_concat s.stack with h | ⟨st, a, h⟩
  · exact .inl h
  · exact .inr ⟨st, a, by simpa using h⟩

/-- RET that completes went to `PROG_START` with an empty stack, or popped an address inside the image. -/
theorem exec_ret_eq_next {s t : State} (h : exec .ret s = .next t) :
    (s.stack = [] ∧ t = { s with pc := Config.progStart }) ∨
    ∃ st a, s.stack = st ++ [a] ∧ a < Config.memSize ∧ t = { s with pc := a, stack := st } := by
  rcases stack_cases s with he | ⟨st, a, hs⟩
  · rw [exec_ret_empty he] at h
    exact .inl ⟨he, (Host.Outcome.next.inj h).symm⟩
  · by_cases ha : a < Config.memSize
    · rw [exec_ret_inside hs ha] at h
      exact .inr ⟨st, a, hs, ha, (Host.Outcome.next.inj h).symm⟩
    · rw [exec_ret_outside hs (Nat.not_lt.mp ha)] at h
      exact nomatch h

/-- CALL that completes had room, pushed the cursor and went to its target. -/
theorem exec_call_eq_next {nnn : Addr12} {s t : State} (h : exec (.call nnn) s = .next t) :
    s.stack.length ≠ Config.stackDepth ∧ t = { s with pc := nnn.toNat, stack := s.stack ++ [s.pc] } := by
  by_cases hf : s.stack.length = Config.stackDepth
  · rw [exec_call_full hf] at h; exact nomatch h
  · rw [exec_call_room hf] at h
    exact ⟨hf, (Host.Outcome.next.inj h).symm⟩

/-- A skip that completes left the cursor or moved it by one instruction width inside the image. -/
theorem skipIf_eq_next {b : Bool} {s t : State} (h : skipIf b s = .next t) :
    (b = false ∧ t = s) ∨
    (b = true ∧ s.pc + Config.instrBytes < Config.memSize ∧ t = { s with pc := s.pc + Config.instrBytes }) := by
  cases b with
  | false => exact .inl ⟨rfl, (Host.Outcome.next.inj h).symm⟩
  | true =>
    have ⟨h1, h2⟩ := advance_eq_next h
    exact .inr ⟨rfl, h1, h2⟩

/-- Everything a completed instruction can have done, by cases. -/
theorem exec_eq_next {i : Instr} {s t : State} (h : exec i s = .next t) :
    (∃ e, (i = .cls ∨ (∃ n, i = .sys n) ∨ ∃ w, i = .unrecognized w) ∧ t = emit e s) ∨
    (∃ x kk v, (i = .ldImm x kk ∨ i = .addImm x kk) ∧ t = setReg x v s) ∨
    (∃ n, i = .jp n ∧ t = { s with pc := n.toNat }) ∨
    (∃ n, i = .call n ∧ s.stack.length ≠ Config.stackDepth ∧
      t = { s with pc := n.toNat, stack := s.stack ++ [s.pc] }) ∨
    (i = .ret ∧ s.stack = [] ∧ t = { s with pc := Config.progStart }) ∨
    (∃ st a, i = .ret ∧ s.stack = st ++ [a] ∧ a < Config.memSize ∧ t = { s with pc := a, stack := st }) ∨
    (((∃ x kk, i = .seImm x kk) ∨ (∃ x kk, i = .sneImm x kk) ∨ ∃ x y, i = .seReg x y) ∧
      (t = s ∨ (s.pc + Config.instrBytes < Config.memSize ∧ t = { s with pc := s.pc + Config.instrBytes }))) := by
  have skips : ∀ {b : Bool}, skipIf b s = .next t →
      t = s ∨ (s.pc + Config.instrBytes < Config.memSize ∧ t = { s with pc := s.pc + Config.instrBytes }) := by
    intro b hb
    rcases skipIf_eq_next hb with ⟨-, ht⟩ | ⟨-, ht⟩
    · exact .inl ht
    · exact .inr ht
  cases i with
  | cls => exact .inl ⟨_, .inl rfl, (Host.Outcome.next.inj h).symm⟩
  | sys n => exact .inl ⟨_, .inr (.inl ⟨n, rfl⟩), (Host.Outcome.next.inj h).symm⟩
  | unrecognized w => exact .inl ⟨_, .inr (.inr ⟨w, rfl⟩), (Host.Outcome.next.inj h).symm⟩
  | ldImm x kk => exact .inr (.inl ⟨x, kk, _, .inl rfl, (Host.Outcome.next.inj h).symm⟩)
  | addImm x kk => exact .inr (.inl ⟨x, kk, _, .inr rfl, (Host.Outcome.next.inj h).symm⟩)
  | jp n =>
    rw [exec_jp] at h
    exact .inr (.inr (.inl ⟨n, rfl, (Host.Outcome.next.inj h).symm⟩))
  | call n =>
    have ⟨h1, h2⟩ := exec_call_eq_next h
    exact .inr (.inr (.inr (.inl ⟨n, rfl, h1, h2⟩)))
  | ret =>
    rcases exec_ret_eq_next h with ⟨h1, h2⟩ | ⟨st, a, h1, h2, h3⟩
    · exact .inr (.inr (.inr (.inr (.inl ⟨rfl, h1, h2⟩))))
    · exact .inr (.inr (.inr (.inr (.inr (.inl ⟨st, a, rfl, h1, h2, h3⟩)))))
  | seImm x kk => exact .inr (.inr (.inr (.inr (.inr (.inr ⟨.inl ⟨x, kk, rfl⟩, skips h⟩)))))
  | sneImm x kk => exact .inr (.inr (.inr (.inr (.inr (.inr ⟨.inr (.inl ⟨x, kk, rfl⟩), skips h⟩)))))
  | seReg x y => exact .inr (.inr (.inr (.inr (.inr (.inr ⟨.inr (.inr ⟨x, y, rfl⟩), skips h⟩)))))

/-! ### withFetchWord -/

/-- The word that `withFetchWord` places is the one the next step fetches and runs. -/
theorem step_placeWord {s : State} (h : s.mem.wf) (w : Word) :
    step (placeWord w s) = exec (decodeWord w) { placeWord w s with pc := fetchHome s + 2 } := by
  have hroom := fetchHome_room s
  rw [step_exec (placeWord_lifecycle w s) (by simpa using hroom)]
  have hb : fetchHome s + [Word.b0 w, Word.b1 w].length ≤ Config.memSize := by
    simp only [List.length_cons, List.length_nil]; omega
  have h0 : (s.mem.writeBytes (fetchHome s) [Word.b0 w, Word.b1 w]).read (fetchHome s) = Word.b0 w :=
    Memory.read_writeBytes_inside h (k := 0) hb (by simp)
  have h1 : (s.mem.writeBytes (fetchHome s) [Word.b0 w, Word.b1 w]).read (fetchHome s + 1) = Word.b1 w :=
    Memory.read_writeBytes_inside h (k := 1) hb (by simp)
  have hi : instrAt (placeWord w s) = decodeWord w := by
    simp only [instrAt, placeWord_mem, placeWord_pc, decodeBytes]
    rw [h0, h1]
    exact congrArg decodeWord (wordOfBytes_split w)
  rw [hi]
  rfl

end Sys2Proof.Machine
end

