-- ==== Sys2Proof/Laws/Run.lean ====
section
/-! SUPPORT. The run loop's equations, and the induction over completed steps packaged once. -/

namespace Sys2Proof.Machine

@[simp] theorem runLoop_zero (s : State) : runLoop 0 s = .cancelled s := rfl

theorem runLoop_next {s t : State} (h : step s = .next t) (k : Nat) : runLoop (k + 1) s = runLoop k t := by
  simp [runLoop, h]

theorem runLoop_fault {s : State} {f : Fault} (h : step s = .fault f) (k : Nat) : runLoop (k + 1) s = .fault f := by
  simp [runLoop, h]

theorem run_ready {s : State} (h : s.lifecycle = .ready) (k : Nat) : run k s = runLoop k s := by
  simp [run, h]

theorem run_notReady {s : State} (h : s.lifecycle ≠ .ready) (k : Nat) : run k s = .refused (.notReady s.lifecycle) := by
  unfold run
  split
  · next hl => rw [hl]
  · next hl => rw [hl]
  · next hl => exact absurd hl h

/-- What holds of a state and is kept by every completed step holds after any number of them. -/
theorem runLoop_induction {P : State → Prop} (hstep : ∀ s t, P s → step s = .next t → P t) {k : Nat} {s t : State}
    (hs : P s) (h : runLoop k s = .cancelled t) : P t := by
  induction k generalizing s with
  | zero => exact (RunEnd.cancelled.inj h) ▸ hs
  | succ k ih =>
    unfold runLoop at h
    split at h
    · next u hu => exact ih (hstep s u hs hu) h
    · exact nomatch h
    · exact nomatch h

/-- The same for `run`, which checks the lifecycle state first. -/
theorem run_induction {P : State → Prop} (hstep : ∀ s t, P s → step s = .next t → P t) {k : Nat} {s t : State}
    (hs : P s) (h : run k s = .cancelled t) : P t := by
  by_cases hr : s.lifecycle = .ready
  · rw [run_ready hr] at h
    exact runLoop_induction hstep hs h
  · rw [run_notReady hr] at h
    exact nomatch h

/-! ### mapNext and the frame words -/

@[simp] theorem mapNext_next (f : State → State) (s : State) : mapNext f (.next s) = .next (f s) := rfl
@[simp] theorem mapNext_fault (f : State → State) (e : Fault) : mapNext f (.fault e) = .fault e := rfl
@[simp] theorem mapNext_refused (f : State → State) (r : Refusal) : mapNext f (.refused r) = .refused r := rfl

theorem sameRegs_refl (s : State) : SameRegs s s := fun _ => rfl
theorem sameMem_refl (s : State) : SameMem s s := fun _ => rfl
theorem sameRest_refl (s : State) : SameRest s s := ⟨rfl, rfl, rfl⟩

/-- Moving the cursor changes nothing else. -/
theorem onlyPcAndEvents_pc (s : State) (a : Nat) : OnlyPcAndEvents s { s with pc := a } :=
  ⟨fun _ => rfl, fun _ => rfl, rfl, rfl, rfl, rfl⟩

/-- Emitting an event changes nothing else. -/
theorem onlyPcAndEvents_emit (s : State) (e : Event) : OnlyPcAndEvents s (emit e s) :=
  ⟨fun _ => rfl, fun _ => rfl, rfl, rfl, rfl, rfl⟩

end Sys2Proof.Machine
end

