-- ==== Sys2Proof/Tests/Slice0.lean ====
section
/-! SUPPORT. The model's own tests: the checks of WellFormed, one decoding per opcode-table row from its bits, one or two
steps per instruction, and a witness for the hypotheses of every statement. Expected results come from the spec's
encodings (30_encoding.md R50, R55) and vectors (95_test_vectors.md), group named in each comment. -/

namespace Sys2Proof.Tests

open Sys2Proof Sys2Proof.Machine

/-! ### Helpers -/

/-- Reset with the word `w` at `c` and the cursor there. -/
def stateAt (c : Nat) (w : Word) : State :=
  { State.reset with pc := c, mem := Memory.writeBytes [] c [Word.b0 w, Word.b1 w] }

/-- The same with register `x` holding `v`. -/
def stateAtV (c : Nat) (w : Word) (x : RegIdx) (v : Byte) : State := setReg x v (stateAt c w)

/-- The next state of an outcome. -/
def nextOf : Result → Option State
  | .next t => some t
  | .fault _ => none
  | .refused _ => none

/-- The fault of an outcome. -/
def faultOf : Result → Option Fault
  | .next _ => none
  | .fault f => some f
  | .refused _ => none

/-- The refusal of an outcome. -/
def refusalOf : Result → Option Refusal
  | .next _ => none
  | .fault _ => none
  | .refused r => some r

/-! ### WellFormed refuses one ill-formed term per check -/

theorem test_wf_sys_not_cls : (Instr.sys 0x0E0#12).wellFormed = false := by decide
theorem test_wf_sys_not_ret : (Instr.sys 0x0EE#12).wellFormed = false := by decide
theorem test_wf_unrecognized_low : (Instr.unrecognized 0x7FFF#16).wellFormed = false := by decide
theorem test_wf_accepts : (Instr.sys 0x0E1#12).wellFormed && (Instr.unrecognized 0x8000#16).wellFormed = true := by
  decide

/-! ### Decoding, one word per row, written out from the bit pictures of R50 and R55 -/

theorem test_decode_cls : decodeWord 0b0000000011100000#16 = .cls := by decide
theorem test_decode_ret : decodeWord 0b0000000011101110#16 = .ret := by decide
theorem test_decode_sys : decodeWord 0b0000101010111100#16 = .sys 0b101010111100#12 := by decide
theorem test_decode_jp : decodeWord 0b0001001000110100#16 = .jp 0b001000110100#12 := by decide
theorem test_decode_call : decodeWord 0b0010101010111100#16 = .call 0b101010111100#12 := by decide
theorem test_decode_seImm : decodeWord 0b0011101001111111#16 = .seImm 0b1010#4 0b01111111#8 := by decide
theorem test_decode_sneImm : decodeWord 0b0100101100000000#16 = .sneImm 0b1011#4 0b00000000#8 := by decide
theorem test_decode_seReg : decodeWord 0b0101000100101111#16 = .seReg 0b0001#4 0b0010#4 := by decide
theorem test_decode_ldImm : decodeWord 0b0110111101010101#16 = .ldImm 0b1111#4 0b01010101#8 := by decide
theorem test_decode_addImm : decodeWord 0b0111111010000000#16 = .addImm 0b1110#4 0b10000000#8 := by decide
theorem test_decode_unrecognized : decodeWord 0b1000000100100100#16 = .unrecognized 0b1000000100100100#16 := by decide

/-- The bytes of 0x6105 as memory holds them, the high byte first (R38). -/
theorem test_decode_bytes : decode [0x61#8, 0x05#8, 0xAA#8] = .ok (.ldImm 0x1#4 0x05#8, [0xAA#8]) := by decide
theorem test_decode_short : decode [0x61#8] = .error .truncated := by decide
theorem test_decodeTableWord : decodeTableWord 16 0x6105 = some (.ldImm 0x1#4 0x05#8) := by decide
theorem test_encode_bytes : encodeBytes (.addImm 0xE#4 0x80#8) = [0x7E#8, 0x80#8] := by decide

/-! ### One step per instruction (V-ZERO, V-JC, V-SKIP, V-RI, V-UNREC) -/

theorem test_step_cls :
    (nextOf (step (stateAt 0x200 0x00E0#16))).map (fun t => (t.pc, t.events)) = some (0x202, [.clsHook]) := by decide

/-- RET at 0x300 with stack [0x202, 0x30A] takes the last entry. -/
theorem test_step_ret_top :
    (nextOf (step { stateAt 0x300 0x00EE#16 with stack := [0x202, 0x30A] })).map (fun t => (t.pc, t.stack)) =
      some (0x30A, [0x202]) := by decide

/-- RET at 0x400 with stack [0x1000]: Fault(InvalidAddress, 0x400, 0x1000). -/
theorem test_step_ret_top_of_memory :
    faultOf (step { stateAt 0x400 0x00EE#16 with stack := [0x1000] }) = some (.invalidAddress 0x400 0x1000) := by decide

theorem test_step_sys :
    (nextOf (step (stateAt 0x202 0x0ABC#16))).map (fun t => (t.pc, t.events)) =
      some (0x204, [.diagSys 0xABC#12]) := by decide

theorem test_step_jp_odd : (nextOf (step (stateAt 0x200 0x1203#16))).map (·.pc) = some 0x203 := by decide

/-- CALL 0x300 at 0xFFE pushes 0x1000. -/
theorem test_step_call_top :
    (nextOf (step (stateAt 0xFFE 0x2300#16))).map (fun t => (t.pc, t.stack)) = some (0x300, [0x1000]) := by decide

/-- CALL 0x300 at 0x250 with 15 entries: Fault(StackOverflow, 0x250, 0x252). -/
theorem test_step_call_full :
    faultOf (step { stateAt 0x250 0x2300#16 with stack := List.replicate 15 0x202 }) =
      some (.stackOverflow 0x250 0x252) := by decide

/-- SE V1, 0x05 at 0xFFA with V1 = 0x05 skips to 0xFFE. -/
theorem test_step_seImm : (nextOf (step (stateAtV 0xFFA 0x3105#16 0x1#4 0x05#8))).map (·.pc) = some 0xFFE := by decide

/-- SE V1, 0x05 at 0xFFD with V1 = 0x05: Fault(InvalidAddress, 0xFFD, 0x1001). -/
theorem test_step_seImm_fault :
    faultOf (step (stateAtV 0xFFD 0x3105#16 0x1#4 0x05#8)) = some (.invalidAddress 0xFFD 0x1001) := by decide

theorem test_step_sneImm_skip : (nextOf (step (stateAt 0x210 0x4201#16))).map (·.pc) = some 0x214 := by decide

/-- SNE V1, 0x05 at 0xFFE with V1 = 0x05 goes on to 0x1000. -/
theorem test_step_sneImm_no_skip :
    (nextOf (step (stateAtV 0xFFE 0x4105#16 0x1#4 0x05#8))).map (·.pc) = some 0x1000 := by decide

/-- 0x512F with V1 = V2 skips whatever n is. -/
theorem test_step_seReg : (nextOf (step (stateAt 0x200 0x512F#16))).map (·.pc) = some 0x204 := by decide

theorem test_step_seReg_no_skip :
    (nextOf (step (stateAtV 0x206 0x5120#16 0x2#4 0x02#8))).map (·.pc) = some 0x208 := by decide

/-- LD V1, 7 at the odd address 0x203. -/
theorem test_step_ldImm :
    (nextOf (step (stateAt 0x203 0x6107#16))).map (fun t => (t.pc, getReg t 0x1#4, getReg t 0x0#4)) =
      some (0x205, 0x07#8, 0x00#8) := by decide

/-- ADD V0, 1 with V0 = 0xFF: the sum wraps, and VF = 0 is no carry flag. -/
theorem test_step_addImm_wraps :
    (nextOf (step (stateAtV 0x200 0x7001#16 0x0#4 0xFF#8))).map (fun t => (getReg t 0x0#4, getReg t 0xF#4)) =
      some (0x00#8, 0x00#8) := by decide

theorem test_step_addImm_two :
    (nextOf (step (stateAtV 0x200 0x70FF#16 0x0#4 0xFF#8))).map (fun t => getReg t 0x0#4) = some 0xFE#8 := by decide

theorem test_step_unrecognized :
    (nextOf (step (stateAt 0x200 0xA123#16))).map (fun t => (t.pc, t.I, t.events)) =
      some (0x202, 0x0000#16, [.diagUnrecognized 0xA123#16]) := by decide

/-! ### Fetch, load and lifecycle (V-FETCH, V-LOAD, R90) -/

theorem test_fetch_last_byte : faultOf (step (stateAt 0xFFF 0x6100#16)) = some (.outOfBounds 0xFFF 0x1000) := by decide

theorem test_fetch_no_byte :
    faultOf (step { State.reset with pc := 0x1000 }) = some (.outOfBounds 0x1000 0x1000) := by decide

theorem test_load_two_bytes :
    (new [0x60#8, 0x05#8] false).mem = [(0x200, 0x60#8), (0x201, 0x05#8)] := by decide

theorem test_load_zero_byte_unlisted : (new [0x00#8, 0xE0#8] false).mem = [(0x201, 0xE0#8)] := by decide

theorem test_write_unlisted_removes : Memory.write [(0x200, 0x60#8)] 0x200 0x00#8 = [] := by decide

theorem test_step_closed :
    refusalOf (step (teardown (stateAt 0x200 0x00E0#16))) = some (.notReady .closed) := by decide

theorem test_display_receives : ∀ b, (nextOf (step { stateAt 0x200 0x00E0#16 with displayAttached := b })).map
    displayReceived = some (if b then [.clsHook] else []) := by decide

theorem test_withFetchWord_at_top :
    (nextOf (step ({ State.reset with pc := 0x1000 }.withFetchWord 16 0x1234))).map (·.pc) = some 0x234 := by decide

/-! ### Witnesses: states and operands that meet the hypotheses of the statements, at the ends of their ranges -/

/-- A state of the invariant other than reset: two entries on the stack, at both ends of their range. -/
def invState (c : Nat) (w : Word) : State := { stateAt c w with stack := [2, 0x1000] }

theorem invState_inv {c : Nat} (hc : c + 2 ≤ Config.memSize) (w : Word) : Inv (invState c w) where
  memWf := Memory.writeBytes_wf (by decide) hc
  pcBound := Nat.le_of_add_right_le hc
  stackBound := (by decide : [2, 0x1000].length ≤ Config.stackDepth)
  stackRange := (by decide : ∀ a ∈ [2, 0x1000], 2 ≤ a ∧ a ≤ Config.memSize)

theorem witness_DecodingAnEncodedInstructionGivesItBack :
    ∀ i ∈ [Instr.cls, .ret, .sys 0x000#12, .sys 0xFFF#12, .jp 0xFFF#12, .call 0x000#12, .seImm 0xF#4 0xFF#8,
      .sneImm 0x0#4 0x00#8, .seReg 0xF#4 0xF#4, .ldImm 0xF#4 0xFF#8, .addImm 0x0#4 0x00#8, .unrecognized 0x8000#16,
      .unrecognized 0xFFFF#16], i.wellFormed = true := by decide

theorem witness_FetchReadsTwoBytesOrIsOutOfBounds :
    (stateAt 0xFFE 0x6001#16).pc + 1 < Config.memSize ∧ (stateAt 0xFFF 0x6001#16).pc + 1 = Config.memSize ∧
    Config.memSize ≤ { State.reset with pc := 0x1000 }.pc := by decide

theorem witness_StepExecutesTheDecodedInstruction :
    (stateAt 0xFFE 0x6001#16).lifecycle = .ready ∧ (stateAt 0xFFE 0x6001#16).pc + 1 < Config.memSize ∧
    decodeBytes ((stateAt 0xFFE 0x6001#16).mem.read 0xFFE) ((stateAt 0xFFE 0x6001#16).mem.read 0xFFF) =
      .ldImm 0x0#4 0x01#8 := by decide

theorem witness_RetGoesToThePoppedAddressOrProgStart :
    State.reset.stack = [] ∧
    ({ State.reset with stack := [0x202, 0xFFF] }.stack = [0x202] ++ [0xFFF] ∧ 0xFFF < Config.memSize) ∧
    ({ State.reset with stack := [0x202, 0x1000] }.stack = [0x202] ++ [0x1000] ∧ Config.memSize ≤ 0x1000 ∧
      { State.reset with stack := [0x202, 0x1000] }.pc = 0x1FE + 2) := by decide

theorem witness_SysReportsItsTargetAndNothingElse :
    (0x0E1#12 : Addr12) ≠ 0x0E0#12 ∧ (0x0E1#12 : Addr12) ≠ 0x0EE#12 := by decide

theorem witness_JpSetsTheCursorToItsTarget :
    (0xFFE#12 : Addr12) ≠ 0xFFF#12 ∧
    (stateAt 0xFFE 0x1FFE#16).lifecycle = .ready ∧ (stateAt 0xFFE 0x1FFE#16).pc = (0xFFE#12 : Addr12).toNat ∧
    (stateAt 0xFFE 0x1FFE#16).pc + 1 < Config.memSize ∧ instrAt (stateAt 0xFFE 0x1FFE#16) = .jp 0xFFE#12 := by decide

theorem witness_CallPushesTheReturnAddressAndJumps :
    { State.reset with stack := List.replicate 14 2 }.stack.length < Config.stackDepth ∧
    { State.reset with stack := List.replicate 15 2 }.stack.length = Config.stackDepth ∧
    { State.reset with stack := List.replicate 15 2 }.pc = 0x1FE + 2 := by decide

/-- SE V1: taken at the last address that may skip, untaken, and taken at the first that faults. -/
theorem witness_SeImmSkipsWhenEqual :
    (getReg { State.reset with pc := 0xFFD } 0x1#4 = 0x00#8 ∧ { State.reset with pc := 0xFFD }.pc + 2 < Config.memSize) ∧
    getReg State.reset 0x1#4 ≠ 0x01#8 ∧
    (getReg { State.reset with pc := 0xFFE } 0x1#4 = 0x00#8 ∧ { State.reset with pc := 0xFFE }.pc = 0xFFC + 2 ∧
      Config.memSize ≤ 0xFFC + 4) := by decide

theorem witness_SneImmSkipsWhenDifferent :
    (getReg { State.reset with pc := 0xFFD } 0x1#4 ≠ 0x01#8 ∧ { State.reset with pc := 0xFFD }.pc + 2 < Config.memSize) ∧
    getReg State.reset 0x1#4 = 0x00#8 ∧
    (getReg { State.reset with pc := 0xFFE } 0x1#4 ≠ 0x01#8 ∧ { State.reset with pc := 0xFFE }.pc = 0xFFC + 2 ∧
      Config.memSize ≤ 0xFFC + 4) := by decide

theorem witness_SeRegSkipsWhenEqual :
    (getReg { State.reset with pc := 0xFFD } 0x1#4 = getReg { State.reset with pc := 0xFFD } 0x2#4 ∧
      { State.reset with pc := 0xFFD }.pc + 2 < Config.memSize) ∧
    getReg (setReg 0x1#4 0x01#8 State.reset) 0x1#4 ≠ getReg (setReg 0x1#4 0x01#8 State.reset) 0x2#4 ∧
    (getReg { State.reset with pc := 0xFFE } 0x1#4 = getReg { State.reset with pc := 0xFFE } 0x2#4 ∧
      { State.reset with pc := 0xFFE }.pc = 0xFFC + 2 ∧ Config.memSize ≤ 0xFFC + 4) := by decide

theorem witness_UnrecognizedWordReportsAndContinues :
    0x8000 ≤ (0x8000#16 : Word).toNat ∧ (stateAt 0xFFE 0x8000#16).lifecycle = .ready ∧
    (stateAt 0xFFE 0x8000#16).pc + 1 < Config.memSize ∧
    wordOfBytes ((stateAt 0xFFE 0x8000#16).mem.read 0xFFE) ((stateAt 0xFFE 0x8000#16).mem.read 0xFFF) = 0x8000#16 := by
  decide

theorem witness_RegisterFileSetsAndWraps : (0xF#4 : RegIdx) ≠ 0x0#4 := by decide

theorem witness_CallStackIsBoundedLastInFirstOut :
    { State.reset with stack := List.replicate 14 2 }.stack.length < Config.stackDepth ∧
    { State.reset with stack := List.replicate 15 2 }.stack.length = Config.stackDepth ∧
    { State.reset with stack := List.replicate 15 2 }.pc = 0x1FE + 2 := by decide

/-- A cursor inside and one outside, a seek and an advance to the last address and to the first outside; both kinds of
move complete somewhere. -/
theorem witness_CursorPrimitivesKeepTheirBounds :
    { State.reset with pc := 0xFFF }.pc < Config.memSize ∧ Config.memSize ≤ { State.reset with pc := 0x1000 }.pc ∧
    0xFFF < Config.memSize ∧ (Config.memSize ≤ 0x1000 ∧ State.reset.pc = 0x1FE + 2) ∧
    { State.reset with pc := 0xFFD }.pc + 2 < Config.memSize ∧
    (Config.memSize ≤ { State.reset with pc := 0xFFE }.pc + 2 ∧ { State.reset with pc := 0xFFE }.pc = 0xFFC + 2) ∧
    (nextOf (seek 0xFFF State.reset)).isSome ∧ (nextOf (advance 2 { State.reset with pc := 0xFFD })).isSome := by decide

theorem witness_ConstructionLoadsTheProgramAndClearsTheRest :
    0 < [0x60#8].length ∧ 0 < 3584 ∧ 0x1FF < 0x200 ∧ 0x1000 ≤ 0x1000 ∧ 0x200 + [0x60#8].length ≤ 0x201 := by decide

/-- The last byte a program can hold: index 3583, and with 3585 bytes the index 3584 that is dropped. -/
theorem witness_LoadAtTheBoundaryTruncatesOneByte :
    (List.replicate 3584 0x60#8).length = 3584 ∧ 3583 < (List.replicate 3584 0x60#8).length ∧
    (List.replicate 3585 0x60#8).length = 3585 ∧ 3584 < (List.replicate 3585 0x60#8).length ∧ 3583 < 3584 ∧
    (0x200, 0x60#8) ∈ (new [0x60#8] false).mem := by
  simp only [List.length_replicate]
  decide

theorem witness_StepKeepsTheInvariant :
    Inv (invState 0xFFE 0x6001#16) ∧ ∃ t, step (invState 0xFFE 0x6001#16) = .next t ∧ t.pc = 0x1000 :=
  ⟨invState_inv (by decide) _, _, rfl, rfl⟩

theorem witness_MemoryIsConstantAfterLoad :
    State.reset.mem.wf ∧ (0 < [0x60#8].length ∧ 0 < 3584) ∧ 0x200 + [0x60#8].length ≤ 0x201 ∧
    (nextOf (exec (.ldImm 0x0#4 0x01#8) State.reset)).isSome ∧ (∃ t, run 1 State.reset = .cancelled t) :=
  ⟨by decide, by decide, by decide, by decide, _, rfl⟩

theorem witness_RegistersAreReadAndWrittenAsListed :
    (∃ t, exec (.addImm 0xF#4 0x01#8) State.reset = .next t ∧ getReg t 0xF#4 ≠ getReg State.reset 0xF#4) ∧
    getReg { State.reset with V := (setReg 0x1#4 0x07#8 State.reset).V } 0x2#4 = getReg State.reset 0x2#4 ∧
    (0x1#4 : RegIdx) ≠ 0x2#4 :=
  ⟨⟨_, rfl, by decide⟩, by decide, by decide⟩

theorem witness_IndexRegisterIsNeverReadOrWritten :
    (∃ t, step State.reset = .next t) ∧ ∃ t, run 2 (new [0x60#8, 0x05#8] true) = .cancelled t :=
  ⟨⟨_, rfl⟩, _, rfl⟩

theorem witness_CursorAfterAStepFollowsTheTable :
    (∃ b0 b1 t, fetch (stateAt 0xFFE 0x6001#16) = .ok (b0, b1, t)) ∧
    (∃ t, step (stateAt 0x200 0x22FF#16) = .next t) ∧
    (∃ t, step { stateAt 0x200 0x00EE#16 with stack := [0x30A] } = .next t) ∧
    { stateAt 0x200 0x00EE#16 with stack := [0x30A] }.stack = [] ++ [0x30A] ∧
    (∃ t, step (stateAt 0x200 0x00EE#16) = .next t) ∧ (stateAt 0x200 0x00EE#16).stack = [] :=
  ⟨⟨_, _, _, rfl⟩, ⟨_, rfl⟩, ⟨_, rfl⟩, rfl, ⟨_, rfl⟩, rfl⟩

theorem witness_OnlyCallAndRetChangeTheStack :
    ∃ t, step (stateAt 0x200 0x22FF#16) = .next t ∧ t.stack ≠ (stateAt 0x200 0x22FF#16).stack :=
  ⟨_, rfl, by decide⟩

theorem witness_FaultsAreExactlyThoseOfTheTable :
    Inv (invState 0xFFE 0x00EE#16) ∧ (invState 0xFFE 0x00EE#16).lifecycle = .ready ∧
    faultOf (step (invState 0xFFE 0x00EE#16)) = some (.invalidAddress 0xFFE 0x1000) :=
  ⟨invState_inv (by decide) _, rfl, by decide⟩

theorem witness_OnlyTheLifecycleErrorRefuses :
    (teardown State.reset).lifecycle ≠ .ready ∧ (cleared false).lifecycle ≠ .ready := by decide

theorem witness_DiagnosticsAreEmittedInOrderAndOnlyObserved :
    ∃ t, step (stateAt 0x200 0x0ABC#16) = .next t ∧ instrAt (stateAt 0x200 0x0ABC#16) = .sys 0xABC#12 :=
  ⟨_, rfl, by decide⟩

theorem witness_DisplayHookIsAnOutputOnly :
    (∃ t, step (stateAt 0x200 0x00E0#16) = .next t ∧ instrAt (stateAt 0x200 0x00E0#16) = .cls) ∧
    State.reset.displayAttached = false :=
  ⟨⟨_, rfl, by decide⟩, rfl⟩

theorem witness_RunsComposeAtEveryCancellationPoint :
    State.reset.lifecycle = .ready ∧ (∃ t, step State.reset = .next t) ∧
    (stateAt 0xFFE 0x6001#16).lifecycle = .ready ∧
    ({ State.reset with pc := 0xFFF }).lifecycle = .ready ∧
    ∃ f, step { State.reset with pc := 0xFFF } = .fault f :=
  ⟨rfl, ⟨_, rfl⟩, rfl, rfl, _, rfl⟩

/-- A memory that differs from the state's in the skipped word alone. -/
theorem witness_StepReadsOnlyTheTwoFetchedBytes :
    ((stateAt 0x200 0x3000#16).mem.write 0x202 0x80#8).read 0x200 = (stateAt 0x200 0x3000#16).mem.read 0x200 ∧
    ((stateAt 0x200 0x3000#16).mem.write 0x202 0x80#8).read 0x201 = (stateAt 0x200 0x3000#16).mem.read 0x201 := by decide

theorem witness_MemoriesThatReadAlikeAreEqual :
    Memory.wf [(0x000, 0x01#8), (0xFFF, 0xFF#8)] ∧ Memory.wf ((Memory.write [] 0xFFF 0xFF#8).write 0x000 0x01#8) ∧
    ∀ a, Memory.read [(0x000, 0x01#8), (0xFFF, 0xFF#8)] a =
      Memory.read ((Memory.write [] 0xFFF 0xFF#8).write 0x000 0x01#8) a :=
  ⟨by decide, by decide, fun _ => rfl⟩

/-- CALL 0x300 at 0x200, and at 0xFFE where the return address is outside the image, with RET at 0x300. -/
theorem witness_CallThenRetComesBack :
    ∀ c ∈ [0x200, 0xFFE], ∀ s ∈ [{ stateAt c 0x2300#16 with mem := (stateAt c 0x2300#16).mem.write 0x301 0xEE#8 }],
      s.lifecycle = .ready ∧ s.stack.length < Config.stackDepth ∧ instrAt s = .call 0x300#12 ∧
      (0x300#12 : Addr12).toNat + 1 < Config.memSize ∧
      decodeBytes (s.mem.read (0x300#12 : Addr12).toNat) (s.mem.read ((0x300#12 : Addr12).toNat + 1)) = .ret ∧
      (s.pc + 2 < Config.memSize ∨ s.pc + 2 = Config.memSize) := by decide

theorem witness_SelfCallOverflowsOnTheSixteenthStep :
    (stateAt 0xFFE 0x2FFE#16).lifecycle = .ready ∧ (stateAt 0xFFE 0x2FFE#16).pc = (0xFFE#12 : Addr12).toNat ∧
    (stateAt 0xFFE 0x2FFE#16).pc + 1 < Config.memSize ∧ instrAt (stateAt 0xFFE 0x2FFE#16) = .call 0xFFE#12 ∧
    (stateAt 0xFFE 0x2FFE#16).stack = [] := by decide

theorem witness_SelfLoopsLeaveTheStateUnchanged :
    ((stateAt 0xFFE 0x1FFE#16).lifecycle = .ready ∧ (stateAt 0xFFE 0x1FFE#16).pc + 1 < Config.memSize ∧
      instrAt (stateAt 0xFFE 0x1FFE#16) = .jp 0xFFE#12 ∧ (0xFFE#12 : Addr12).toNat = (stateAt 0xFFE 0x1FFE#16).pc) ∧
    ((stateAt 0x200 0x00EE#16).lifecycle = .ready ∧ instrAt (stateAt 0x200 0x00EE#16) = .ret ∧
      (stateAt 0x200 0x00EE#16).stack = [] ∧ (stateAt 0x200 0x00EE#16).pc = Config.progStart) := by decide

/-- From an even address, an odd one and the first one outside. -/
theorem witness_ZeroedMemoryRunsToTheTopAndFaults :
    ∀ p ∈ [0x200, 0xFFF, 0x1000], { State.reset with pc := p }.lifecycle = .ready ∧
      { State.reset with pc := p }.pc ≤ Config.memSize ∧
      ∀ a, { State.reset with pc := p }.pc ≤ a → { State.reset with pc := p }.mem.read a = 0x00#8 :=
  fun p hp => ⟨rfl, (by decide : ∀ q ∈ [0x200, 0xFFF, 0x1000], q ≤ Config.memSize) p hp, fun _ _ => rfl⟩

end Sys2Proof.Tests
end

section
/-! Proofs of the statements of 10_state.md: the invariant, what a step reads and writes, the cursor and the stack. -/

namespace Sys2Proof.Machine

/-! ### The stack's operations (R23, R24) -/

theorem pop_eq_none_iff (s : State) : pop s = none ↔ s.stack = [] := by
  rcases stack_cases s with h | ⟨st, a, h⟩
  · simp [pop_empty h, h]
  · simp [pop_concat h, h]

theorem pop_eq_some_iff (s t : State) (a : Nat) :
    pop s = some (a, t) ↔ s.stack = t.stack ++ [a] ∧ t = { s with stack := t.stack } := by
  constructor
  · intro h
    rcases stack_cases s with he | ⟨st, b, hs⟩
    · rw [pop_empty he] at h
      exact nomatch h
    · rw [pop_concat hs] at h
      obtain ⟨rfl, rfl⟩ := Prod.mk.inj (Option.some.inj h)
      exact ⟨hs, rfl⟩
  · rintro ⟨hs, ht⟩
    rw [pop_concat hs, ← ht]

/-- R76 and R20: after the fetch the start address is the cursor less the two bytes fetched. -/
theorem instrStart_of_pc {s : State} {c : Nat} (h : s.pc = c + 2) : instrStart s = c := by
  simp [instrStart, h]

/-! ### The fetch and the skip, inverted -/

/-- A fetch that succeeds had two bytes to read, read those, and moved the cursor past them. -/
theorem fetch_eq_ok {s t : State} {b0 b1 : Byte} (h : fetch s = .ok (b0, b1, t)) :
    s.pc + 1 < Config.memSize ∧ b0 = s.mem.read s.pc ∧ b1 = s.mem.read (s.pc + 1) ∧
      t = { s with pc := s.pc + 2 } := by
  rcases Nat.lt_trichotomy (s.pc + 1) Config.memSize with hlt | heq | hgt
  · rw [fetch_inside hlt] at h
    cases h
    exact ⟨hlt, rfl, rfl, rfl⟩
  · rw [fetch_last heq] at h
    exact nomatch h
  · rw [fetch_outside (by omega)] at h
    exact nomatch h

theorem skipIf_pc {b : Bool} {s t : State} (h : skipIf b s = .next t) :
    t.pc = if b then s.pc + Config.instrBytes else s.pc := by
  rcases skipIf_eq_next h with ⟨rfl, rfl⟩ | ⟨rfl, -, rfl⟩ <;> rfl

/-- A taken skip moves the cursor, so it is never the outcome of going on. -/
theorem skip_ne_next (s : State) : skip s ≠ .next s := by
  intro h
  have hpc : s.pc = s.pc + Config.instrBytes := skipIf_pc (b := true) h
  simp at hpc

/-! ### The frame of a step -/

/-- No instruction changes the memory, the index register, the lifecycle state or the display's attachment. -/
theorem exec_frame {i : Instr} {s t : State} (h : exec i s = .next t) : t.mem = s.mem ∧ SameRest s t := by
  rcases exec_eq_next h with ⟨e, -, rfl⟩ | ⟨x, -, v, -, rfl⟩ | ⟨n, -, rfl⟩ | ⟨n, -, -, rfl⟩ | ⟨-, -, rfl⟩ |
    ⟨st, a, -, -, -, rfl⟩ | ⟨-, rfl | ⟨-, rfl⟩⟩ <;> exact ⟨rfl, rfl, rfl, rfl⟩

theorem step_frame {s t : State} (h : step s = .next t) : t.mem = s.mem ∧ SameRest s t := by
  obtain ⟨-, -, hexec⟩ := step_eq_next h
  exact exec_frame (s := { s with pc := s.pc + 2 }) hexec

theorem step_I {s t : State} (h : step s = .next t) : t.I = s.I := by
  obtain ⟨-, hI, -, -⟩ := step_frame h
  exact hI

/-! ### Updates of the invariant (R19, R22, R33) -/

theorem Inv.setPc {s : State} (hs : Inv s) {a : Nat} (ha : a ≤ Config.memSize) : Inv { s with pc := a } :=
  { hs with pcBound := ha }

theorem Inv.emit {s : State} (hs : Inv s) (e : Event) : Inv (emit e s) :=
  ⟨hs.memWf, hs.pcBound, hs.stackBound, hs.stackRange⟩

theorem Inv.setReg {s : State} (hs : Inv s) (x : RegIdx) (v : Byte) : Inv (setReg x v s) :=
  ⟨hs.memWf, hs.pcBound, hs.stackBound, hs.stackRange⟩

/-- Pushing a cursor after a fetch on a stack with room. -/
theorem Inv.push {s : State} (hs : Inv s) (hroom : s.stack.length ≠ Config.stackDepth) {a : Nat} (ha : 2 ≤ a)
    (ha' : a ≤ Config.memSize) : Inv { s with stack := s.stack ++ [a] } where
  memWf := hs.memWf
  pcBound := hs.pcBound
  stackBound := by
    have := hs.stackBound
    simp only [List.length_append, List.length_singleton]
    omega
  stackRange b hb := by
    rcases List.mem_append.mp hb with hb | hb
    · exact hs.stackRange b hb
    · exact List.mem_singleton.mp hb ▸ ⟨ha, ha'⟩

theorem Inv.pop {s : State} (hs : Inv s) {st : List Nat} {a : Nat} (h : s.stack = st ++ [a]) :
    Inv { s with stack := st } where
  memWf := hs.memWf
  pcBound := hs.pcBound
  stackBound := by
    have := hs.stackBound
    rw [h, List.length_append] at this
    exact Nat.le_of_add_right_le this
  stackRange b hb := hs.stackRange b (h ▸ List.mem_append_left [a] hb)

/-- An instruction keeps the invariant; it starts after a fetch, so the cursor that CALL pushes is at least 2 (R22). -/
theorem exec_keeps_inv {i : Instr} {s t : State} (hs : Inv s) (hpc : 2 ≤ s.pc) (h : exec i s = .next t) : Inv t := by
  have inImage (n : Addr12) : n.toNat ≤ Config.memSize := Nat.le_of_lt n.isLt
  rcases exec_eq_next h with ⟨e, -, rfl⟩ | ⟨x, -, v, -, rfl⟩ | ⟨n, -, rfl⟩ | ⟨n, -, hroom, rfl⟩ | ⟨-, -, rfl⟩ |
    ⟨st, a, -, hst, ha, rfl⟩ | ⟨-, rfl | ⟨ha, rfl⟩⟩
  · exact hs.emit e
  · exact hs.setReg x v
  · exact hs.setPc (inImage n)
  · exact (hs.push hroom hpc hs.pcBound).setPc (inImage n)
  · exact hs.setPc (by decide)
  · exact (hs.pop hst).setPc ha.le
  · exact hs
  · exact hs.setPc ha.le

/-- Settles O26: the fetch leaves the cursor in 2..`MEM_SIZE`, and from there every instruction keeps the invariant. -/
theorem stepKeepsTheInvariant : Obligations.StepKeepsTheInvariant := by
  intro s t hs h
  obtain ⟨-, hroom, hexec⟩ := step_eq_next h
  exact exec_keeps_inv (hs.setPc hroom) (Nat.le_add_left 2 s.pc) hexec

/-! ### Updates that a step carries through

The cursor and the stack decide where control goes. An update of other fields commutes with every operation on these
two, so each such operation is treated once for all updates. -/

/-- The state with another cursor and stack. -/
def setControl (pc : Nat) (stack : List Nat) (s : State) : State := { s with pc := pc, stack := stack }

/-- `f` neither changes nor reads the cursor and the stack: it commutes with setting both. -/
def LeavesControl (f : State → State) : Prop := ∀ s pc st, f (setControl pc st s) = setControl pc st (f s)

theorem leavesControl_setV (v : Vector Byte Config.nregs) : LeavesControl (fun s => { s with V := v }) :=
  fun _ _ _ => rfl

theorem leavesControl_setIndex (v : Word) : LeavesControl (setIndex v) := fun _ _ _ => rfl

/-- An advance is a seek to the cursor it would produce (R35, R36). -/
theorem advance_eq_seek (n : Nat) (s : State) : advance n s = seek (s.pc + n) s := rfl

section
variable {f : State → State} (hf : LeavesControl f)
include hf

theorem LeavesControl.pc (s : State) : (f s).pc = s.pc := (congrArg State.pc (hf s s.pc s.stack) :)

theorem LeavesControl.stack (s : State) : (f s).stack = s.stack :=
  (congrArg State.stack (hf s s.pc s.stack) :)

/-- Setting the cursor alone. -/
theorem LeavesControl.setPc (s : State) (a : Nat) : f { s with pc := a } = setControl a (f s).stack (f s) := by
  rw [hf.stack]
  exact hf s a s.stack

theorem LeavesControl.instrStart (s : State) : instrStart (f s) = instrStart s :=
  congrArg (· - Config.instrBytes) (hf.pc s)

theorem LeavesControl.seek (a : Nat) (s : State) : seek a (f s) = mapNext f (seek a s) := by
  by_cases ha : a < Config.memSize
  · rw [seek_inside ha, seek_inside ha, mapNext_next]
    exact congrArg Host.Outcome.next (hf.setPc s a).symm
  · have ha := Nat.not_lt.mp ha
    rw [seek_outside ha, seek_outside ha, mapNext_fault, hf.instrStart]

theorem LeavesControl.skipIf (b : Bool) (s : State) : skipIf b (f s) = mapNext f (skipIf b s) := by
  cases b with
  | false => rfl
  | true => rw [skipIf_true, skipIf_true, advance_eq_seek, advance_eq_seek, hf.pc, hf.seek]

theorem LeavesControl.exec_jp (n : Addr12) (s : State) : exec (.jp n) (f s) = mapNext f (exec (.jp n) s) :=
  hf.seek n.toNat s

theorem LeavesControl.exec_call (n : Addr12) (s : State) : exec (.call n) (f s) = mapNext f (exec (.call n) s) := by
  have hst := hf.stack s
  by_cases hfull : s.stack.length = Config.stackDepth
  · rw [exec_call_full hfull, exec_call_full (hst ▸ hfull), mapNext_fault, hf.instrStart, hf.pc]
  · rw [exec_call_room hfull, exec_call_room (hst ▸ hfull), mapNext_next, hst, hf.pc]
    exact congrArg Host.Outcome.next (hf s n.toNat (s.stack ++ [s.pc])).symm

theorem LeavesControl.exec_ret (s : State) : exec .ret (f s) = mapNext f (exec .ret s) := by
  have hst := hf.stack s
  rcases stack_cases s with he | ⟨st, a, hs⟩
  · rw [exec_ret_empty he, exec_ret_empty (hst ▸ he), mapNext_next]
    exact congrArg Host.Outcome.next (hf.setPc s Config.progStart).symm
  · by_cases ha : a < Config.memSize
    · rw [exec_ret_inside hs ha, exec_ret_inside (hst ▸ hs) ha, mapNext_next]
      exact congrArg Host.Outcome.next (hf s a st).symm
    · have ha := Nat.not_lt.mp ha
      rw [exec_ret_outside hs ha, exec_ret_outside (hst ▸ hs) ha, mapNext_fault, hf.instrStart]

/-- What the fetched instruction carries through, the step does, if the update leaves the lifecycle and the instruction
at the cursor. -/
theorem LeavesControl.step {s : State} (hl : (f s).lifecycle = s.lifecycle) (hi : instrAt (f s) = instrAt s)
    (hexec : ∀ u, exec (instrAt s) (f u) = mapNext f (exec (instrAt s) u)) : step (f s) = mapNext f (step s) := by
  have hpc := hf.pc s
  by_cases hr : s.lifecycle = .ready
  · have hr' := hl.trans hr
    rcases Nat.lt_trichotomy (s.pc + 1) Config.memSize with hlt | heq | hgt
    · rw [step_exec hr hlt, step_exec hr' (hpc ▸ hlt), hi, hpc, ← hexec]
      exact congrArg (exec (instrAt s)) (hf.setPc s (s.pc + 2)).symm
    · rw [step_last hr heq, step_last hr' (hpc ▸ heq), mapNext_fault, hpc]
    · have hout : Config.memSize ≤ s.pc := Nat.le_of_lt_succ hgt
      rw [step_outside hr hout, step_outside hr' (hpc ▸ hout), mapNext_fault, hpc]
  · rw [step_notReady hr, step_notReady (hl ▸ hr), mapNext_refused, hl]

end

/-! ### The registers (R15) -/

/-- What each skip does on a condition stated as a proposition. -/
theorem skipIf_eq_ite {b : Bool} {p : Prop} [Decidable p] (h : b = true ↔ p) (s : State) :
    skipIf b s = if p then skip s else .next s :=
  if_congr h rfl rfl

/-- A register changed by an instruction is the one LD or ADD names. -/
theorem exec_changes_reg {i : Instr} {s t : State} {r : RegIdx} (h : exec i s = .next t)
    (hr : getReg t r ≠ getReg s r) : ∃ kk, i = .ldImm r kk ∨ i = .addImm r kk := by
  rcases exec_eq_next h with ⟨e, -, rfl⟩ | ⟨x, kk, v, hi, rfl⟩ | ⟨n, -, rfl⟩ | ⟨n, -, -, rfl⟩ | ⟨-, -, rfl⟩ |
    ⟨st, a, -, -, -, rfl⟩ | ⟨-, rfl | ⟨-, rfl⟩⟩
  · exact absurd rfl hr
  · have hx : r = x := by_contra fun hne => hr (getReg_setReg_other hne v s)
    exact ⟨kk, hx ▸ hi⟩
  all_goals exact absurd rfl hr

/-- Settles O30: the writes and reads case by case over the instructions; the control transfers carry the replaced
register file through. -/
theorem registersAreReadAndWrittenAsListed : Obligations.RegistersAreReadAndWrittenAsListed := by
  refine ⟨fun x kk s => ⟨⟨_, exec_ldImm x kk s, getReg_setReg_same x kk s⟩, _, exec_addImm x kk s, by simp⟩,
    skip_ne_next, fun x kk v s => ⟨?_, ?_⟩, fun x y v s hxy => ⟨?_, ?_⟩, fun i s t r => exec_changes_reg,
    fun i s v hv => ?_⟩
  · rw [exec_seImm, getReg_setReg_same]
    exact skipIf_eq_ite (equalCondition_iff v kk) _
  · rw [exec_sneImm, getReg_setReg_same]
    exact skipIf_eq_ite (differCondition_iff v kk) _
  · rw [exec_seReg, getReg_setReg_same, getReg_setReg_other hxy.symm]
    exact skipIf_eq_ite (equalCondition_iff v _) _
  · rw [exec_seReg, getReg_setReg_same, getReg_setReg_other hxy]
    exact skipIf_eq_ite (equalCondition_iff _ v) _
  · have hf := leavesControl_setV v
    cases i with
    | cls => rfl
    | sys n => rfl
    | unrecognized w => rfl
    | jp n => exact hf.exec_jp n s
    | call n => exact hf.exec_call n s
    | ret => exact hf.exec_ret s
    | seImm x kk =>
      rw [exec_seImm, exec_seImm, hv]
      exact hf.skipIf _ s
    | sneImm x kk =>
      rw [exec_sneImm, exec_sneImm, hv]
      exact hf.skipIf _ s
    | seReg x y =>
      rw [exec_seReg, exec_seReg, hv.1, hv.2]
      exact hf.skipIf _ s
    | ldImm x kk =>
      exact congrArg (fun b => Host.Outcome.next (setReg x b { s with V := v })) (getReg_setReg_same x kk s).symm
    | addImm x kk =>
      rw [exec_addImm, hv]
      exact congrArg (fun b => Host.Outcome.next (setReg x b { s with V := v })) (getReg_setReg_same x _ s).symm

/-! ### The index register (R28) -/

/-- No instruction reads the index register. -/
theorem exec_setIndex (i : Instr) (v : Word) (s : State) :
    exec i (setIndex v s) = mapNext (setIndex v) (exec i s) := by
  have hf := leavesControl_setIndex v
  cases i with
  | cls => rfl
  | sys n => rfl
  | unrecognized w => rfl
  | ldImm x kk => rfl
  | addImm x kk => rfl
  | jp n => exact hf.exec_jp n s
  | call n => exact hf.exec_call n s
  | ret => exact hf.exec_ret s
  | seImm x kk => exact hf.skipIf _ s
  | sneImm x kk => exact hf.skipIf _ s
  | seReg x y => exact hf.skipIf _ s

/-- Settles O31: no instruction writes `I` or reads it, and over a run the value 0 is kept by every step. -/
theorem indexRegisterIsNeverReadOrWritten : Obligations.IndexRegisterIsNeverReadOrWritten := by
  refine ⟨fun s t => step_I, fun s v => ?_, fun program attached k t h => ?_⟩
  · exact (leavesControl_setIndex v).step rfl rfl (exec_setIndex _ v)
  · exact run_induction (P := fun u => u.I = 0x0000#16) (fun _ _ hI hstep => (step_I hstep).trans hI)
      (new_I program attached) h

/-! ### The cursor and the stack after a step (R20, R22) -/

/-- Settles O32: row by row, from the meaning of the instruction on the state after the fetch. -/
theorem cursorAfterAStepFollowsTheTable : Obligations.CursorAfterAStepFollowsTheTable := by
  refine ⟨fun s t b0 b1 h => ?_, fun s t h => ?_⟩
  · obtain ⟨-, -, -, rfl⟩ := fetch_eq_ok h
    rfl
  obtain ⟨-, -, hexec⟩ := step_eq_next h
  generalize instrAt s = i at hexec ⊢
  cases i with
  | cls => cases hexec; rfl
  | sys n => cases hexec; rfl
  | unrecognized w => cases hexec; rfl
  | ldImm x kk => cases hexec; rfl
  | addImm x kk => cases hexec; rfl
  | seImm x kk =>
    rw [exec_seImm] at hexec
    simpa [Config.instrBytes] using skipIf_pc hexec
  | sneImm x kk =>
    rw [exec_sneImm] at hexec
    simpa [Config.instrBytes] using skipIf_pc hexec
  | seReg x y =>
    rw [exec_seReg] at hexec
    simpa [Config.instrBytes] using skipIf_pc hexec
  | jp n =>
    rw [exec_jp] at hexec
    cases hexec
    rfl
  | call n =>
    obtain ⟨-, rfl⟩ := exec_call_eq_next hexec
    exact ⟨rfl, rfl⟩
  | ret =>
    rcases exec_ret_eq_next hexec with ⟨he, rfl⟩ | ⟨st, a, hs, -, rfl⟩
    · exact ⟨fun _ => rfl, fun st a hs => absurd (he.symm.trans hs) (by simp)⟩
    · refine ⟨fun he => absurd (he.symm.trans hs) (by simp), fun st' a' hs' => ?_⟩
      have htop : st = st' ∧ a = a' := by simpa using hs.symm.trans hs'
      exact htop.2

/-- Settles O33: of the cases of a completed instruction only CALL and RET have another stack. -/
theorem onlyCallAndRetChangeTheStack : Obligations.OnlyCallAndRetChangeTheStack := by
  intro s t h hne
  obtain ⟨-, -, hexec⟩ := step_eq_next h
  rcases exec_eq_next hexec with ⟨e, -, rfl⟩ | ⟨x, -, v, -, rfl⟩ | ⟨n, -, rfl⟩ | ⟨n, hi, -, rfl⟩ | ⟨-, -, rfl⟩ |
    ⟨st, a, hi, hst, -, rfl⟩ | ⟨-, rfl | ⟨-, rfl⟩⟩
  · exact absurd rfl hne
  · exact absurd rfl hne
  · exact absurd rfl hne
  · exact .inl ⟨n, hi, rfl⟩
  · exact absurd rfl hne
  · exact .inr ⟨hi, a, hst, rfl⟩
  · exact absurd rfl hne
  · exact absurd rfl hne

/-! ### The register file and the call stack on their own -/

/-- Settles O20: increment is a write of the wrapping sum, and a write is read back at its own index alone. -/
theorem registerFileSetsAndWraps : Obligations.RegisterFileSetsAndWraps := by
  intro s i r v d
  refine ⟨getReg_setReg i r v s, ?_, fun hr => getReg_setReg_other hr _ s, ?_⟩
  · rw [incrementReg, getReg_setReg_same, addWrap_toNat]
  · rw [incrementReg, getReg_setReg_same, addWrap_toNat, getReg_setReg_same]

/-- Settles O21: by the push with room and at capacity, and by the two answers of a pop. -/
theorem callStackIsBoundedLastInFirstOut : Obligations.CallStackIsBoundedLastInFirstOut := by
  intro s a
  refine ⟨fun hroom => ⟨_, push_room hroom.ne a, rfl, rfl, pop_concat rfl⟩, fun c hfull hpc => ?_, pop_eq_none_iff s,
    fun t => pop_eq_some_iff s t a⟩
  rw [push_full hfull, instrStart_of_pc hpc]

end Sys2Proof.Machine
end

section
/-! Proofs of the statements of 20_memory.md: the decoder against the encoder, the fetch and the cursor's primitives,
the memory's canonical form, who writes the image and who reads it. -/

namespace Sys2Proof

/-! ### Decode of encode (R38, R50, R53) -/

/-- A word with another address field is another word: so SYS, kept off the targets of CLS and RET, is not read as
either of them (R54, D1). -/
theorem formatA_ne_of_nnn_ne {c : BitVec 4} {nnn : Addr12} {w : Word} (h : nnn ≠ Word.nnn w) : formatA c nnn ≠ w := by
  rintro rfl
  exact h (nnn_formatA c nnn).symm

/-- Each row is found by its class, and its operands are the fields the format put there. -/
theorem decodeWord_encode {i : Instr} (h : i.wellFormed = true) : decodeWord (encode i) = i := by
  cases i with
  | cls => exact decodeWord_cls
  | ret => exact decodeWord_ret
  | sys nnn =>
    obtain ⟨hcls, hret⟩ := (sysTargetOk_iff nnn).mp h
    rw [encode, decodeWord_class0 (nibble_formatA _ _) (formatA_ne_of_nnn_ne hcls) (formatA_ne_of_nnn_ne hret),
      nnn_formatA]
  | jp nnn => rw [encode, decodeWord_class1 (nibble_formatA _ _), nnn_formatA]
  | call nnn => rw [encode, decodeWord_class2 (nibble_formatA _ _), nnn_formatA]
  | seImm x kk => rw [encode, decodeWord_class3 (nibble_formatXK _ _ _), x_formatXK, kk_formatXK]
  | sneImm x kk => rw [encode, decodeWord_class4 (nibble_formatXK _ _ _), x_formatXK, kk_formatXK]
  | seReg x y => rw [encode, decodeWord_class5 (nibble_formatXY _ _ _ _), x_formatXY, y_formatXY]
  | ldImm x kk => rw [encode, decodeWord_class6 (nibble_formatXK _ _ _), x_formatXK, kk_formatXK]
  | addImm x kk => rw [encode, decodeWord_class7 (nibble_formatXK _ _ _), x_formatXK, kk_formatXK]
  | unrecognized w => exact decodeWord_classU ((unrecognizedWordOk_iff w).mp h)

/-- The bytes of an instruction are decoded as its word, whatever follows them (R38). -/
theorem decode_encodeBytes_append (i : Instr) (rest : List Byte) :
    decode (encodeBytes i ++ rest) = .ok (decodeWord (encode i), rest) := by
  have hword : decodeBytes (Word.b0 (encode i)) (Word.b1 (encode i)) = decodeWord (encode i) :=
    congrArg decodeWord (wordOfBytes_split (encode i))
  rw [← hword]
  exact decode_cons_cons _ _ rest

/-- Settles O2: row by row for the word, and the two bytes put the word together again. -/
theorem decodingAnEncodedInstructionGivesItBack : Obligations.DecodingAnEncodedInstructionGivesItBack := by
  intro i h
  have hword := decodeWord_encode h
  exact ⟨hword, fun rest => by rw [decode_encodeBytes_append, hword]⟩

end Sys2Proof

namespace Sys2Proof.Machine

/-! ### The memory's canonical form (R30, R32; log 1) -/

theorem Memory.read_cons (k : Nat) (w : Byte) (m : Memory) (a : Nat) :
    Memory.read ((k, w) :: m) a = if a = k then w else m.read a := rfl

/-- The cells of a canonical memory are what its addresses read as, where that is not the unlisted byte. -/
theorem Memory.mem_iff_read {m : Memory} (h : m.wf) (a : Nat) (v : Byte) :
    (a, v) ∈ m ↔ m.read a = v ∧ v ≠ Memory.unlisted := by
  induction m with
  | nil =>
    refine ⟨fun hmem => absurd hmem List.not_mem_nil, fun ⟨hread, hv⟩ => ?_⟩
    exact absurd hread.symm hv
  | cons p m ih =>
    obtain ⟨k, w⟩ := p
    have hw : w ≠ Memory.unlisted := (h.2 (k, w) List.mem_cons_self).2
    rw [List.mem_cons, Prod.mk.injEq, Memory.read_cons]
    by_cases hak : a = k
    · have hnot : (a, v) ∉ m := fun hm => Nat.ne_of_gt ((List.pairwise_cons.mp h.1).1 (a, v) hm) hak
      rw [if_pos hak]
      constructor
      · rintro (⟨-, rfl⟩ | hm)
        · exact ⟨rfl, hw⟩
        · exact absurd hm hnot
      · rintro ⟨rfl, -⟩
        exact .inl ⟨hak, rfl⟩
    · rw [if_neg hak, ← ih (Memory.wf_tail h)]
      exact or_iff_right fun heq => hak heq.1

/-- Settles O39: such memories list the same cells, and by rising address there is one way to list them. -/
theorem memoriesThatReadAlikeAreEqual : Obligations.MemoriesThatReadAlikeAreEqual := by
  intro m m' h h' hread
  have : Std.Irrefl fun p q : Host.Cell => p.1 < q.1 := ⟨fun p => Nat.lt_irrefl p.1⟩
  have : Std.Antisymm fun p q : Host.Cell => p.1 < q.1 := ⟨fun _ _ hpq hqp => absurd hqp (Nat.lt_asymm hpq)⟩
  refine List.Pairwise.eq_of_mem_iff h.1 h'.1 fun p => ?_
  rw [Memory.mem_iff_read h, Memory.mem_iff_read h', hread]

/-! ### Who writes the image (R32, R98) -/

/-- Load puts the bytes there is room for at `PROG_START` onwards. -/
theorem read_load_inside {s : State} (h : s.mem.wf) {bytes : List Byte} {k : Nat} (hk : k < bytes.length)
    (hroom : k < loadRoom) : (load bytes s).mem.read (Config.progStart + k) = bytes[k] := by
  have hk' : k < (bytes.take loadRoom).length := by
    rw [List.length_take]
    exact Nat.lt_min.mpr ⟨hroom, hk⟩
  rw [load_mem, Memory.read_writeBytes_inside h (load_fits bytes) hk', List.getElem_take]

/-- Load leaves every address below `PROG_START`, outside the image, or after the program's bytes. -/
theorem read_load_other {s : State} {bytes : List Byte} {a : Nat}
    (h : a < Config.progStart ∨ Config.memSize ≤ a ∨ Config.progStart + bytes.length ≤ a) :
    (load bytes s).mem.read a = s.mem.read a := by
  have hfits := load_fits bytes
  have hshort : (bytes.take loadRoom).length ≤ bytes.length := List.length_take_le' _ _
  rw [load_mem]
  exact Memory.read_writeBytes_other (by omega)

theorem step_mem {s t : State} (h : step s = .next t) : t.mem = s.mem := by
  obtain ⟨hmem, -⟩ := step_frame h
  exact hmem

/-- A run that ends by cancellation has the memory it began with. -/
theorem run_mem {k : Nat} {s t : State} (h : run k s = .cancelled t) : t.mem = s.mem :=
  run_induction (P := fun u => u.mem = s.mem) (fun _ _ hu hstep => (step_mem hstep).trans hu) rfl h

/-- Settles O29: load's writes read back, and the frame of an instruction carried along the run. -/
theorem memoryIsConstantAfterLoad : Obligations.MemoryIsConstantAfterLoad :=
  ⟨fun _ _ => rfl, fun _ _ hwf => ⟨fun _ hk hroom => read_load_inside hwf hk hroom, fun _ => read_load_other⟩,
    fun _ _ _ => exec_frame, fun _ _ _ => run_mem⟩

/-! ### Who reads the image (R40, R48, R103) -/

theorem leavesControl_setMem (m : Memory) : LeavesControl (fun s => { s with mem := m }) := fun _ _ _ => rfl

/-- An instruction carries through an update that leaves the registers and commutes with what the instructions write
besides the cursor and the stack. -/
theorem LeavesControl.exec_of_commutes {f : State → State} (hf : LeavesControl f)
    (hget : ∀ r s, getReg (f s) r = getReg s r) (hset : ∀ r v s, setReg r v (f s) = f (setReg r v s))
    (hemit : ∀ e s, emit e (f s) = f (emit e s)) (i : Instr) (s : State) : exec i (f s) = mapNext f (exec i s) := by
  cases i with
  | cls => exact congrArg Host.Outcome.next (hemit _ s)
  | sys n => exact congrArg Host.Outcome.next (hemit _ s)
  | unrecognized w => exact congrArg Host.Outcome.next (hemit _ s)
  | ldImm x kk => exact congrArg Host.Outcome.next (hset x kk s)
  | addImm x kk =>
    rw [exec_addImm, exec_addImm, hget]
    exact congrArg Host.Outcome.next (hset x _ s)
  | jp n => exact hf.exec_jp n s
  | call n => exact hf.exec_call n s
  | ret => exact hf.exec_ret s
  | seImm x kk =>
    rw [exec_seImm, exec_seImm, hget]
    exact hf.skipIf _ s
  | sneImm x kk =>
    rw [exec_sneImm, exec_sneImm, hget]
    exact hf.skipIf _ s
  | seReg x y =>
    rw [exec_seReg, exec_seReg, hget, hget]
    exact hf.skipIf _ s

/-- No instruction reads memory: only the fetch before it does (R48). -/
theorem exec_setMem (i : Instr) (m : Memory) (s : State) :
    exec i { s with mem := m } = mapNext (fun t => { t with mem := m }) (exec i s) :=
  (leavesControl_setMem m).exec_of_commutes (fun _ _ => rfl) (fun _ _ _ => rfl) (fun _ _ => rfl) i s

/-- Settles O38: memory reaches a step through the two fetched bytes alone, since no instruction reads it. -/
theorem stepReadsOnlyTheTwoFetchedBytes : Obligations.StepReadsOnlyTheTwoFetchedBytes := by
  intro s m h0 h1
  have hinstr : instrAt { s with mem := m } = instrAt s := congrArg₂ decodeBytes h0 h1
  exact (leavesControl_setMem m).step rfl hinstr (exec_setMem _ m)

/-! ### The fetch and the cursor's primitives (R34 to R36, R38, R48) -/

/-- Settles O7: by the number of bytes left at the cursor. -/
theorem fetchReadsTwoBytesOrIsOutOfBounds : Obligations.FetchReadsTwoBytesOrIsOutOfBounds := by
  intro s
  refine ⟨fun h => ⟨_, _, _, fetch_inside h, rfl, rfl, wordOfBytes_toNat _ _, rfl⟩, fun h => ?_, fetch_outside⟩
  rw [fetch_last h, h]

/-- Settles O22: each primitive on both sides of its bound, and the seek and the advance that complete inverted. -/
theorem cursorPrimitivesKeepTheirBounds : Obligations.CursorPrimitivesKeepTheirBounds := by
  intro s c a n
  refine ⟨fun h => readByte_inside h c, fun h => readByte_outside h c, fun h => seek_inside h s, fun h hpc => ?_,
    advance_inside, fun h hpc => ?_, ?_⟩
  · rw [seek_outside h, instrStart_of_pc hpc]
  · rw [advance_outside h, instrStart_of_pc hpc]
  · rintro t (h | h)
    · obtain ⟨ha, rfl⟩ := seek_eq_next h
      exact ha
    · obtain ⟨ha, rfl⟩ := advance_eq_next h
      exact ha

end Sys2Proof.Machine
end

section
/-! Proofs of the statements of 30_encoding.md: the word's fields against masks and byte expressions, the opcode map
row by row, encode of decode, and the step as fetch, decode, execute. -/

namespace Sys2Proof

/-! ### Fields against masks (R49) -/

/-- The mask of a whole field. -/
@[simp] theorem and_F (x : BitVec 4) : x &&& 0xF#4 = x := BitVec.and_allOnes

/-- A mask acts on each field of a word by itself. -/
theorem and_formatXY (w : Word) (c x y n : BitVec 4) :
    w &&& formatXY c x y n =
      formatXY (Word.nibble w &&& c) (Word.x w &&& x) (Word.y w &&& y) (Word.n w &&& n) := by
  conv_lhs => rw [← formatXY_fields w]
  exact BitVec.and_append.trans (congrArg _ (BitVec.and_append.trans (congrArg _ BitVec.and_append)))

theorem and_F000 (w : Word) : w &&& 0xF000#16 = formatXY (Word.nibble w) 0#4 0#4 0#4 :=
  (and_formatXY w 0xF#4 0#4 0#4 0#4).trans (by simp)

theorem and_0F00 (w : Word) : w &&& 0x0F00#16 = formatXY 0#4 (Word.x w) 0#4 0#4 :=
  (and_formatXY w 0#4 0xF#4 0#4 0#4).trans (by simp)

theorem and_00F0 (w : Word) : w &&& 0x00F0#16 = formatXY 0#4 0#4 (Word.y w) 0#4 :=
  (and_formatXY w 0#4 0#4 0xF#4 0#4).trans (by simp)

theorem and_FFF0 (w : Word) : w &&& 0xFFF0#16 = formatXY (Word.nibble w) (Word.x w) (Word.y w) 0#4 :=
  (and_formatXY w 0xF#4 0xF#4 0xF#4 0#4).trans (by simp)

/-- The class of a word, as the match of a mask. -/
theorem and_F000_eq_iff (w : Word) (c : BitVec 4) : w &&& 0xF000#16 = formatXY c 0#4 0#4 0#4 ↔ Word.nibble w = c := by
  rw [and_F000]
  constructor
  · intro h
    simpa using congrArg Word.nibble h
  · rintro rfl
    rfl

theorem and_0FFF_toNat_eq_iff (w : Word) (nnn : Addr12) :
    (w &&& 0x0FFF#16).toNat = nnn.toNat ↔ Word.nnn w = nnn := by
  rw [← BitVec.toNat_inj, nnn_toNat, BitVec.toNat_and]
  exact Eq.congr_left (Nat.and_two_pow_sub_one_eq_mod w.toNat 12)

theorem and_00FF_toNat_eq_iff (w : Word) (kk : Byte) : (w &&& 0x00FF#16).toNat = kk.toNat ↔ Word.kk w = kk := by
  rw [← BitVec.toNat_inj, kk_toNat, BitVec.toNat_and]
  exact Eq.congr_left (Nat.and_two_pow_sub_one_eq_mod w.toNat 8)

theorem and_0F00_toNat_eq_iff (w : Word) (x : RegIdx) :
    ((w &&& 0x0F00#16) >>> 8).toNat = x.toNat ↔ Word.x w = x := by
  rw [← BitVec.toNat_inj, and_0F00, BitVec.toNat_ushiftRight, formatXY_toNat, Nat.shiftRight_eq_div_pow]
  simp

theorem and_00F0_toNat_eq_iff (w : Word) (y : RegIdx) :
    ((w &&& 0x00F0#16) >>> 4).toNat = y.toNat ↔ Word.y w = y := by
  rw [← BitVec.toNat_inj, and_00F0, BitVec.toNat_ushiftRight, formatXY_toNat, Nat.shiftRight_eq_div_pow]
  simp

/-- The unrecognized words by a mask: bit 15 is set (R74). -/
theorem unrecognizedWordOk_iff_and_8000 (w : Word) :
    unrecognizedWordOk w = true ↔ w &&& 0x8000#16 = 0x8000#16 := by
  have hmask : w &&& 0x8000#16 = if w.msb then 0x8000#16 else 0#16 := by
    rw [BitVec.msb_eq_getLsbD_last]
    exact BitVec.and_twoPow w 15
  rw [hmask, unrecognizedWordOk]
  cases w.msb <;> decide

/-! ### The words of a format, by their fields (R50) -/

theorem formatA_eq_iff {c : BitVec 4} {nnn : Addr12} {w : Word} :
    formatA c nnn = w ↔ Word.nibble w = c ∧ Word.nnn w = nnn := by
  constructor
  · rintro rfl
    exact ⟨nibble_formatA c nnn, nnn_formatA c nnn⟩
  · rintro ⟨rfl, rfl⟩
    exact formatA_fields w

theorem formatXK_eq_iff {c : BitVec 4} {x : RegIdx} {kk : Byte} {w : Word} :
    formatXK c x kk = w ↔ Word.nibble w = c ∧ Word.x w = x ∧ Word.kk w = kk := by
  constructor
  · rintro rfl
    exact ⟨nibble_formatXK c x kk, x_formatXK c x kk, kk_formatXK c x kk⟩
  · rintro ⟨rfl, rfl, rfl⟩
    exact formatXK_fields w

/-- Format A as masks and matches. -/
theorem formatA_eq_iff_masks {c : BitVec 4} {nnn : Addr12} {w : Word} :
    formatA c nnn = w ↔
      w &&& 0xF000#16 = formatXY c 0#4 0#4 0#4 ∧ (w &&& 0x0FFF#16).toNat = nnn.toNat := by
  rw [formatA_eq_iff, and_F000_eq_iff, and_0FFF_toNat_eq_iff]

/-- Format XK as masks and matches. -/
theorem formatXK_eq_iff_masks {c : BitVec 4} {x : RegIdx} {kk : Byte} {w : Word} :
    formatXK c x kk = w ↔ w &&& 0xF000#16 = formatXY c 0#4 0#4 0#4 ∧
      ((w &&& 0x0F00#16) >>> 8).toNat = x.toNat ∧ (w &&& 0x00FF#16).toNat = kk.toNat := by
  rw [formatXK_eq_iff, and_F000_eq_iff, and_0F00_toNat_eq_iff, and_00FF_toNat_eq_iff]

/-- SYS keeps off the words of CLS and RET (R53, R65). -/
theorem sysTargetOk_iff_formatA_ne (nnn : Addr12) :
    sysTargetOk nnn = true ↔ formatA 0x0#4 nnn ≠ 0x00E0#16 ∧ formatA 0x0#4 nnn ≠ 0x00EE#16 := by
  rw [sysTargetOk_iff]
  constructor
  · rintro ⟨hcls, hret⟩
    exact ⟨formatA_ne_of_nnn_ne hcls, formatA_ne_of_nnn_ne hret⟩
  · rintro ⟨hcls, hret⟩
    exact ⟨fun h => hcls (h ▸ rfl), fun h => hret (h ▸ rfl)⟩

/-! ### Every word is an encoding, but for class 5 (R55, R58, R60) -/

/-- The classes of R53: one of 0 to 7, or the top bit is set. -/
theorem nibble_cases (w : Word) :
    Word.nibble w = 0x0#4 ∨ Word.nibble w = 0x1#4 ∨ Word.nibble w = 0x2#4 ∨ Word.nibble w = 0x3#4 ∨
      Word.nibble w = 0x4#4 ∨ Word.nibble w = 0x5#4 ∨ Word.nibble w = 0x6#4 ∨ Word.nibble w = 0x7#4 ∨
      0x8000 ≤ w.toNat := by
  simp only [← BitVec.toNat_inj, nibble_toNat, BitVec.toNat_ofNat]
  omega

/-- Outside class 5 no bit of a word is ignored, so the word is the encoding of some well-formed instruction. -/
theorem class5_or_eq_encode (w : Word) :
    Word.nibble w = 0x5#4 ∨ ∃ i : Instr, i.wellFormed = true ∧ encode i = w := by
  rcases nibble_cases w with h | h | h | h | h | h | h | h | h
  · by_cases hcls : w = 0x00E0#16
    · exact .inr ⟨.cls, rfl, hcls.symm⟩
    by_cases hret : w = 0x00EE#16
    · exact .inr ⟨.ret, rfl, hret.symm⟩
    have hw : formatA 0x0#4 (Word.nnn w) = w := formatA_eq_iff.mpr ⟨h, rfl⟩
    have htarget : sysTargetOk (Word.nnn w) = true :=
      (sysTargetOk_iff_formatA_ne _).mpr (by rw [hw]; exact ⟨hcls, hret⟩)
    exact .inr ⟨.sys (Word.nnn w), htarget, hw⟩
  · exact .inr ⟨.jp (Word.nnn w), rfl, formatA_eq_iff.mpr ⟨h, rfl⟩⟩
  · exact .inr ⟨.call (Word.nnn w), rfl, formatA_eq_iff.mpr ⟨h, rfl⟩⟩
  · exact .inr ⟨.seImm (Word.x w) (Word.kk w), rfl, formatXK_eq_iff.mpr ⟨h, rfl, rfl⟩⟩
  · exact .inr ⟨.sneImm (Word.x w) (Word.kk w), rfl, formatXK_eq_iff.mpr ⟨h, rfl, rfl⟩⟩
  · exact .inl h
  · exact .inr ⟨.ldImm (Word.x w) (Word.kk w), rfl, formatXK_eq_iff.mpr ⟨h, rfl, rfl⟩⟩
  · exact .inr ⟨.addImm (Word.x w) (Word.kk w), rfl, formatXK_eq_iff.mpr ⟨h, rfl, rfl⟩⟩
  · exact .inr ⟨.unrecognized w, (unrecognizedWordOk_iff w).mpr h, rfl⟩

theorem wellFormed_decodeWord (w : Word) : (decodeWord w).wellFormed = true := by
  rcases class5_or_eq_encode w with h | ⟨i, hi, rfl⟩
  · rw [decodeWord_class5 h]
    rfl
  · rw [decodeWord_encode hi]
    exact hi

theorem encode_decodeWord {w : Word} (h : Word.nibble w ≠ 0x5#4) : encode (decodeWord w) = w := by
  rcases class5_or_eq_encode w with h5 | ⟨i, hi, rfl⟩
  · exact absurd h5 h
  · rw [decodeWord_encode hi]

/-- Class 5 loses its low nibble, which is no operand (R56, D20). -/
theorem encode_decodeWord_class5 {w : Word} (h : Word.nibble w = 0x5#4) :
    encode (decodeWord w) = w &&& 0xFFF0#16 := by
  rw [decodeWord_class5 h, and_FFF0, h, encode]

/-- Settles O3: every word outside class 5 is an encoding, and class 5 loses what its mask clears. -/
theorem encodingADecodedWordGivesItBackButForClassFive :
    Obligations.EncodingADecodedWordGivesItBackButForClassFive := by
  intro w
  refine ⟨wellFormed_decodeWord w, ?_⟩
  have hclass : w &&& 0xF000#16 = 0x5000#16 ↔ Word.nibble w = 0x5#4 := and_F000_eq_iff w 0x5#4
  by_cases h : Word.nibble w = 0x5#4
  · rw [if_pos (hclass.mpr h), encode_decodeWord_class5 h]
  · rw [if_neg (mt hclass.mp h), encode_decodeWord h]

/-! ### The opcode map (R53, R55) -/

/-- In every row but SE Vx, Vy one word alone decodes to an instruction: its encoding. -/
theorem decodeWord_eq_iff {w : Word} (i : Instr) (hreg : ∀ x y, i ≠ .seReg x y) :
    decodeWord w = i ↔ i.wellFormed = true ∧ encode i = w := by
  constructor
  · rintro rfl
    exact ⟨wellFormed_decodeWord w, encode_decodeWord fun h5 => hreg _ _ (decodeWord_class5 h5)⟩
  · rintro ⟨hi, rfl⟩
    exact decodeWord_encode hi

theorem decodeWord_eq_iff_encode_eq {w : Word} (i : Instr) (hreg : ∀ x y, i ≠ .seReg x y)
    (hi : i.wellFormed = true) : decodeWord w = i ↔ encode i = w :=
  (decodeWord_eq_iff i hreg).trans (and_iff_right hi)

/-- The row of SE Vx, Vy: class 5 with any low nibble (D26). -/
theorem decodeWord_eq_seReg_iff {w : Word} {x y : RegIdx} :
    decodeWord w = .seReg x y ↔ Word.nibble w = 0x5#4 ∧ Word.x w = x ∧ Word.y w = y := by
  constructor
  · intro hd
    rcases class5_or_eq_encode w with h5 | ⟨i, hi, rfl⟩
    · rw [decodeWord_class5 h5] at hd
      exact ⟨h5, Instr.seReg.inj hd⟩
    · obtain rfl : i = .seReg x y := by rw [← hd, decodeWord_encode hi]
      exact ⟨nibble_formatXY .., x_formatXY .., y_formatXY ..⟩
  · rintro ⟨h5, rfl, rfl⟩
    exact decodeWord_class5 h5

/-- The row of SYS: class 0 without the two zero-operand words (R53, D1). -/
theorem decodeWord_eq_sys_iff {w : Word} {nnn : Addr12} :
    decodeWord w = .sys nnn ↔ formatA 0x0#4 nnn = w ∧ w ≠ 0x00E0#16 ∧ w ≠ 0x00EE#16 := by
  rw [decodeWord_eq_iff (.sys nnn) nofun, and_comm]
  refine and_congr_right ?_
  rintro rfl
  exact sysTargetOk_iff_formatA_ne nnn

/-- The row of the unrecognized words: bit 15 is set, and the operand is the word (R74). -/
theorem decodeWord_eq_unrecognized_iff {w v : Word} :
    decodeWord w = .unrecognized v ↔ w &&& 0x8000#16 = 0x8000#16 ∧ v = w := by
  rw [decodeWord_eq_iff (.unrecognized v) nofun]
  refine and_congr_left ?_
  rintro rfl
  exact unrecognizedWordOk_iff_and_8000 v

/-- Settles O4: row by row, the words that decode to an instruction are those of its format with its operands. -/
theorem decoderFollowsTheOpcodeMap : Obligations.DecoderFollowsTheOpcodeMap := by
  intro w
  refine ⟨?cls, ?ret, ?sys, ?jp, ?call, ?seImm, ?sneImm, ?seReg, ?ldImm, ?addImm, ?unrecognized⟩
  case cls => exact (decodeWord_eq_iff_encode_eq .cls nofun rfl).trans eq_comm
  case ret => exact (decodeWord_eq_iff_encode_eq .ret nofun rfl).trans eq_comm
  case sys =>
    intro nnn
    rw [decodeWord_eq_sys_iff, formatA_eq_iff_masks]
    exact ⟨fun ⟨⟨hm, hf⟩, hcls, hret⟩ => ⟨hm, hcls, hret, hf⟩,
      fun ⟨hm, hcls, hret, hf⟩ => ⟨⟨hm, hf⟩, hcls, hret⟩⟩
  case jp =>
    intro nnn
    exact (decodeWord_eq_iff_encode_eq (.jp nnn) nofun rfl).trans formatA_eq_iff_masks
  case call =>
    intro nnn
    exact (decodeWord_eq_iff_encode_eq (.call nnn) nofun rfl).trans formatA_eq_iff_masks
  case seImm =>
    intro x kk
    exact (decodeWord_eq_iff_encode_eq (.seImm x kk) nofun rfl).trans formatXK_eq_iff_masks
  case sneImm =>
    intro x kk
    exact (decodeWord_eq_iff_encode_eq (.sneImm x kk) nofun rfl).trans formatXK_eq_iff_masks
  case seReg =>
    intro x y
    rw [decodeWord_eq_seReg_iff, ← and_F000_eq_iff, ← and_0F00_toNat_eq_iff, ← and_00F0_toNat_eq_iff]
    rfl
  case ldImm =>
    intro x kk
    exact (decodeWord_eq_iff_encode_eq (.ldImm x kk) nofun rfl).trans formatXK_eq_iff_masks
  case addImm =>
    intro x kk
    exact (decodeWord_eq_iff_encode_eq (.addImm x kk) nofun rfl).trans formatXK_eq_iff_masks
  case unrecognized => exact fun v => decodeWord_eq_unrecognized_iff

/-! ### The byte expressions (R49) -/

/-- `b & 0xF`, the low nibble of a byte. -/
theorem and_0F_toNat (b : Byte) : ((b &&& 0xF#8).setWidth 4).toNat = b.toNat % 16 := by
  have hlow : b.toNat &&& 0xF = b.toNat % 16 := Nat.and_two_pow_sub_one_eq_mod b.toNat 4
  rw [BitVec.toNat_setWidth, BitVec.toNat_and, BitVec.toNat_ofNat, hlow, Nat.mod_mod]

/-- `b >> 4`, the high nibble of a byte. -/
theorem ushiftRight_4_toNat (b : Byte) : ((b >>> 4).setWidth 4).toNat = b.toNat / 16 := by
  have := b.isLt
  rw [BitVec.toNat_setWidth, BitVec.toNat_ushiftRight, Nat.shiftRight_eq_div_pow]
  omega

theorem nibble_wordOfBytes (b0 b1 : Byte) : Word.nibble (wordOfBytes b0 b1) = (b0 >>> 4).setWidth 4 := by
  apply BitVec.eq_of_toNat_eq
  have := b1.isLt
  rw [nibble_toNat, wordOfBytes_toNat, ushiftRight_4_toNat]
  omega

theorem x_wordOfBytes (b0 b1 : Byte) : Word.x (wordOfBytes b0 b1) = (b0 &&& 0xF#8).setWidth 4 := by
  apply BitVec.eq_of_toNat_eq
  have := b1.isLt
  rw [x_toNat, wordOfBytes_toNat, and_0F_toNat]
  omega

theorem y_wordOfBytes (b0 b1 : Byte) : Word.y (wordOfBytes b0 b1) = (b1 >>> 4).setWidth 4 := by
  apply BitVec.eq_of_toNat_eq
  have := b1.isLt
  rw [y_toNat, wordOfBytes_toNat, ushiftRight_4_toNat]
  omega

theorem n_wordOfBytes (b0 b1 : Byte) : Word.n (wordOfBytes b0 b1) = (b1 &&& 0xF#8).setWidth 4 := by
  apply BitVec.eq_of_toNat_eq
  rw [n_toNat, wordOfBytes_toNat, and_0F_toNat]
  omega

/-- `kk` is the second byte: the byte at the higher address (R38). -/
theorem kk_wordOfBytes (b0 b1 : Byte) : Word.kk (wordOfBytes b0 b1) = b1 := b1_wordOfBytes b0 b1

/-- The address field is `x` above `kk`. -/
theorem nnn_eq_append (w : Word) : Word.nnn w = Word.x w ++ Word.kk w :=
  (BitVec.extractLsb'_append_extractLsb'_eq_extractLsb' (x := w) (len₂ := 4) (len₁ := 8) rfl).symm

theorem nnn_wordOfBytes (b0 b1 : Byte) :
    Word.nnn (wordOfBytes b0 b1) = ((Word.x (wordOfBytes b0 b1)).setWidth 12 <<< 8) ||| b1.setWidth 12 := by
  rw [nnn_eq_append, kk_wordOfBytes, BitVec.append_def, BitVec.shiftLeftZeroExtend_eq]
  rfl

/-- Settles O5: each field by its value, and by its byte expression. -/
theorem fieldsAreTheDocumentsByteExpressions : Obligations.FieldsAreTheDocumentsByteExpressions := by
  intro b0 b1
  exact ⟨⟨nibble_wordOfBytes b0 b1, nibble_toNat _⟩, ⟨x_wordOfBytes b0 b1, x_toNat _⟩,
    ⟨y_wordOfBytes b0 b1, y_toNat _⟩, ⟨nnn_wordOfBytes b0 b1, nnn_toNat _⟩,
    ⟨kk_wordOfBytes b0 b1, kk_toNat _⟩, ⟨n_wordOfBytes b0 b1, n_toNat _⟩⟩

/-! ### Listed words and short sequences (R47, R55, R58) -/

/-- Settles O1: fifteen closed words, each run through the decoder. -/
theorem specWordsDecodeAsListed : Obligations.SpecWordsDecodeAsListed := by
  unfold Obligations.SpecWordsDecodeAsListed
  decide

/-- Settles O6: by the number of bytes, of which two always make a word. -/
theorem decoderRefusesOnlyShortSequences : Obligations.DecoderRefusesOnlyShortSequences := by
  intro bytes e
  match bytes with
  | [] => simp [decode]
  | [b0] => simp [decode]
  | b0 :: b1 :: rest => simp

end Sys2Proof

namespace Sys2Proof.Machine

/-! ### The step (R62) -/

/-- Settles O8: the bytes at the cursor are what the fetch of a Ready machine reads. -/
theorem stepExecutesTheDecodedInstruction : Obligations.StepExecutesTheDecodedInstruction := by
  rintro s _ hready hroom rfl
  exact step_exec hready hroom

end Sys2Proof.Machine
end

section
/-! Proofs of the statements of 40_zero_operand.md: CLS and the host's channels, RET, and the RET after a CALL. -/

namespace Sys2Proof.Machine

/-! ### The channels after one event (R84, R85) -/

theorem diagnostics_emit (e : Event) (s : State) :
    diagnostics (emit e s) = diagnostics s ++ if e.isDiagnostic then [e] else [] := by
  rw [diagnostics, diagnostics, emit_events, List.filter_append, List.filter_singleton, Bool.cond_eq_ite]

/-- What an event adds for the display collaborator: the event if there is one and the event is a hook. -/
theorem displayReceived_emit (e : Event) (s : State) :
    displayReceived (emit e s) =
      displayReceived s ++ if s.displayAttached && !e.isDiagnostic then [e] else [] := by
  rw [displayReceived, displayReceived, emit_displayAttached, emit_events, List.filter_append]
  cases s.displayAttached with
  | false => simp
  | true => simp [List.filter_singleton, Bool.cond_eq_ite]

/-- Settles O9: CLS emits the hook event, and each channel sees it or not by the event's kind. -/
theorem clsEmitsOneHookEventAndNothingElse : Obligations.ClsEmitsOneHookEventAndNothingElse := by
  refine ⟨decodeWord_cls, fun s => ⟨_, exec_cls s, rfl, ?_, ?_, rfl, onlyPcAndEvents_emit s .clsHook⟩⟩
  · simp [diagnostics_emit, Event.isDiagnostic]
  · simp [displayReceived_emit, Event.isDiagnostic]

/-- Settles O10: by the stack, and for a popped address by the side of the image's bound it lies on. -/
theorem retGoesToThePoppedAddressOrProgStart : Obligations.RetGoesToThePoppedAddressOrProgStart := by
  refine ⟨decodeWord_ret, fun s => ⟨fun hempty => ?_, fun st a htop ha => ?_, fun st a c htop ha hpc => ?_⟩⟩
  · exact ⟨_, exec_ret_empty hempty, rfl, rfl, onlyPcAndEvents_pc s _⟩
  · exact ⟨_, exec_ret_inside htop ha, rfl, rfl, rfl, fun _ => rfl, sameMem_refl s, sameRest_refl s⟩
  · rw [exec_ret_outside htop ha, instrStart_of_pc hpc]

/-! ### CALL and then RET (R64, R67; W3) -/

/-- A step on a CALL with room on the stack pushes the address after it and goes to the target. -/
theorem step_call_room {s : State} {nnn : Addr12} (hready : s.lifecycle = .ready) (hin : s.pc + 1 < Config.memSize)
    (hroom : s.stack.length ≠ Config.stackDepth) (hcall : instrAt s = .call nnn) :
    step s = .next { s with pc := nnn.toNat, stack := s.stack ++ [s.pc + 2] } := by
  rw [step_exec hready hin, hcall]
  exact exec_call_room (s := { s with pc := s.pc + 2 }) hroom nnn

section
variable {s : State} {st : List Nat} {a : Nat} (hready : s.lifecycle = .ready) (hin : s.pc + 1 < Config.memSize)
  (hret : instrAt s = .ret) (htop : s.stack = st ++ [a])
include hready hin hret htop

/-- A step on a RET with an address of the image on top of the stack goes there. -/
theorem step_ret_inside (ha : a < Config.memSize) : step s = .next { s with pc := a, stack := st } := by
  rw [step_exec hready hin, hret]
  exact exec_ret_inside (s := { s with pc := s.pc + 2 }) htop ha

/-- A step on a RET with an address outside the image on top of the stack faults at the RET (D3). -/
theorem step_ret_outside (ha : Config.memSize ≤ a) : step s = .fault (.invalidAddress s.pc a) := by
  rw [step_exec hready hin, hret]
  exact exec_ret_outside (s := { s with pc := s.pc + 2 }) htop ha

end

/-- Settles O41: the CALL's push is what the RET pops, so the second step depends on the side of the image's bound on
which the address after the CALL lies. -/
theorem callThenRetComesBack : Obligations.CallThenRetComesBack := by
  intro s nnn hready hroom hcall htarget hret
  have hstep (hin : s.pc + 1 < Config.memSize) := step_call_room hready hin hroom.ne hcall
  constructor
  · intro hin
    have hback := step_ret_inside (s := { s with pc := nnn.toNat, stack := s.stack ++ [s.pc + 2] })
      hready htarget hret rfl hin
    rw [run_ready hready, runLoop_next (hstep (Nat.lt_of_succ_lt hin)), runLoop_next hback, runLoop_zero]
  · intro hend
    have hfault := step_ret_outside (s := { s with pc := nnn.toNat, stack := s.stack ++ [s.pc + 2] })
      hready htarget hret rfl hend.ge
    rw [run_ready hready, runLoop_next (hstep (Nat.lt_of_succ_le hend.le)), runLoop_fault hfault, hend]

end Sys2Proof.Machine
end

section
/-! Proofs of the statements of 41_jump_call.md: SYS, JP and CALL, and the runs of a CALL, a JP or a RET that comes
back to its own address. -/

namespace Sys2Proof.Machine

/-! ### SYS, JP and CALL (R65 to R67) -/

/-- Settles O11: SYS emits its event, and the two targets it does not take are what makes its term well-formed. -/
theorem sysReportsItsTargetAndNothingElse : Obligations.SysReportsItsTargetAndNothingElse := by
  intro nnn s
  refine ⟨fun hcls hret => ?_, ?_⟩
  · exact decodeWord_encode (i := .sys nnn) ((sysTargetOk_iff nnn).mpr ⟨hcls, hret⟩)
  · exact ⟨_, exec_sys nnn s, rfl, rfl, onlyPcAndEvents_emit s (.diagSys nnn)⟩

/-- A target other than the last address has a byte of the image after it. -/
theorem addr_succ_lt_memSize {nnn : Addr12} (h : nnn ≠ 0xFFF#12) : nnn.toNat + 1 < Config.memSize := by
  have hlt : nnn.toNat < 0x1000 := nnn.isLt
  have hne : nnn.toNat ≠ 0xFFF := fun heq => h (BitVec.eq_of_toNat_eq heq)
  show nnn.toNat + 1 < 0x1000
  omega

/-- A step on a JP goes to the target. -/
theorem step_jp {s : State} {nnn : Addr12} (hready : s.lifecycle = .ready) (hin : s.pc + 1 < Config.memSize)
    (hjp : instrAt s = .jp nnn) : step s = .next { s with pc := nnn.toNat } := by
  rw [step_exec hready hin, hjp, exec_jp]

/-- A JP to its own address changes nothing (R66). -/
theorem step_jp_self {s : State} {nnn : Addr12} (hready : s.lifecycle = .ready) (hin : s.pc + 1 < Config.memSize)
    (hjp : instrAt s = .jp nnn) (hself : s.pc = nnn.toNat) : step s = .next s := by
  rw [step_jp hready hin hjp, ← hself]

/-- Settles O12: JP is a seek inside the image; the fetch after it finds a second byte but at 0xFFF. -/
theorem jpSetsTheCursorToItsTarget : Obligations.JpSetsTheCursorToItsTarget := by
  intro nnn s
  refine ⟨decodeWord_encode (i := .jp nnn) rfl,
    ⟨_, exec_jp nnn s, rfl, rfl, onlyPcAndEvents_pc s _, fun hne => ?_, ?_⟩,
    fun hready hself hin hjp => step_jp_self hready hin hjp hself⟩
  · exact ⟨_, fetch_inside (s := { s with pc := nnn.toNat }) (addr_succ_lt_memSize hne)⟩
  · rintro rfl
    exact ⟨_, _, fetch_last (s := { s with pc := (0xFFF#12 : Addr12).toNat }) rfl⟩

/-- Settles O13: by the room on the stack. -/
theorem callPushesTheReturnAddressAndJumps : Obligations.CallPushesTheReturnAddressAndJumps := by
  intro nnn s
  refine ⟨decodeWord_encode (i := .call nnn) rfl, fun hroom => ?_, fun c hfull hpc => ?_⟩
  · exact ⟨_, exec_call_room hroom.ne nnn, rfl, rfl, rfl, fun _ => rfl, sameMem_refl s, sameRest_refl s⟩
  · rw [exec_call_full hfull, instrStart_of_pc hpc, hpc]

/-! ### Runs that stay where they are (R66, R64, R89) -/

/-- A step on a RET with an empty stack goes to `PROG_START`. -/
theorem step_ret_empty {s : State} (hready : s.lifecycle = .ready) (hin : s.pc + 1 < Config.memSize)
    (hret : instrAt s = .ret) (hempty : s.stack = []) : step s = .next { s with pc := Config.progStart } := by
  rw [step_exec hready hin, hret]
  exact exec_ret_empty (s := { s with pc := s.pc + 2 }) hempty

/-- A run stays in a state that steps to itself. -/
theorem runLoop_of_step_self {s : State} (h : step s = .next s) (k : Nat) : runLoop k s = .cancelled s := by
  induction k with
  | zero => rfl
  | succ k ih => rw [runLoop_next h, ih]

/-- Settles O43: the step of either loop goes back to the state it began in. -/
theorem selfLoopsLeaveTheStateUnchanged : Obligations.SelfLoopsLeaveTheStateUnchanged := by
  intro s hready hin hloop k
  have hstep : step s = .next s := by
    rcases hloop with ⟨nnn, hjp, hself⟩ | ⟨hret, hempty, hstart⟩
    · exact step_jp_self hready hin hjp hself.symm
    · rw [step_ret_empty hready hin hret hempty, ← hstart]
  rw [run_ready hready, runLoop_of_step_self hstep]

/-! ### A CALL to itself (R67, R105) -/

theorem runLoop_refused {s : State} {r : Refusal} (h : step s = .refused r) (k : Nat) :
    runLoop (k + 1) s = .refused r := by
  simp [runLoop, h]

/-- Past a point it reaches, a run is the run from there. -/
theorem runLoop_add {j : Nat} {s t : State} (h : runLoop j s = .cancelled t) (k : Nat) :
    runLoop (j + k) s = runLoop k t := by
  induction j generalizing s with
  | zero => rw [Nat.zero_add, RunEnd.cancelled.inj h]
  | succ j ih =>
    rw [Nat.succ_add]
    cases hstep : step s with
    | next u =>
      rw [runLoop_next hstep] at h ⊢
      exact ih h
    | fault f =>
      rw [runLoop_fault hstep] at h
      exact nomatch h
    | refused r =>
      rw [runLoop_refused hstep] at h
      exact nomatch h

section
variable {s : State} {nnn : Addr12} (hready : s.lifecycle = .ready) (hin : s.pc + 1 < Config.memSize)
  (hcall : instrAt s = .call nnn)
include hready hin hcall

/-- A step on a CALL with a full stack faults, naming the address it could not push (D5). -/
theorem step_call_full (hfull : s.stack.length = Config.stackDepth) :
    step s = .fault (.stackOverflow s.pc (s.pc + 2)) := by
  rw [step_exec hready hin, hcall]
  exact exec_call_full (s := { s with pc := s.pc + 2 }) hfull nnn

/-- A CALL to its own address pushes once in each step while there is room, and changes nothing else. -/
theorem runLoop_selfCall (hself : s.pc = nnn.toNat) {k : Nat} (hroom : s.stack.length + k ≤ Config.stackDepth) :
    runLoop k s = .cancelled { s with stack := s.stack ++ List.replicate k (s.pc + 2) } := by
  induction k generalizing s with
  | zero => rw [List.replicate_zero, List.append_nil, runLoop_zero]
  | succ k ih =>
    have hstep : step s = .next { s with stack := s.stack ++ [s.pc + 2] } := by
      rw [step_call_room hready hin (by omega) hcall, ← hself]
    have hroom' : (s.stack ++ [s.pc + 2]).length + k ≤ Config.stackDepth := by
      rw [List.length_append, List.length_singleton]
      omega
    rw [runLoop_next hstep, ih (s := { s with stack := s.stack ++ [s.pc + 2] }) hready hin hcall hself hroom',
      List.append_assoc, List.singleton_append, ← List.replicate_succ]

end

/-- Settles O42: fifteen pushes fill the stack that began empty, and the next CALL finds it full. -/
theorem selfCallOverflowsOnTheSixteenthStep : Obligations.SelfCallOverflowsOnTheSixteenthStep := by
  intro s nnn hready hself hin hcall hempty
  have hpushes {k : Nat} (hk : k ≤ 15) :
      runLoop k s = .cancelled { s with stack := List.replicate k (s.pc + 2) } := by
    rw [runLoop_selfCall hready hin hcall hself (by simpa [hempty] using hk), hempty, List.nil_append]
  have hfault := step_call_full (s := { s with stack := List.replicate 15 (s.pc + 2) }) hready hin hcall
    List.length_replicate
  refine ⟨fun k hk => ?_, ?_⟩
  · rw [run_ready hready, hpushes hk]
  · rw [run_ready hready, runLoop_add (hpushes le_rfl) 1, runLoop_fault hfault]

end Sys2Proof.Machine
end

section
/-! Proofs of the statements of 42_skip.md: the skip on both sides of the image's bound, and each of the three
instructions as a choice between the skip and going on. -/

namespace Sys2Proof.Machine

/-! ### The skip (R68) -/

/-- A skip that stays inside the image moves the cursor by one instruction width and nothing else. -/
theorem skip_inside {s : State} (hin : s.pc + 2 < Config.memSize) :
    ∃ t, skip s = .next t ∧ t.pc = s.pc + 2 ∧ t.events = s.events ∧ OnlyPcAndEvents s t :=
  ⟨_, advance_inside hin, rfl, rfl, onlyPcAndEvents_pc s _⟩

/-- A skip out of the image faults at the skip and names the cursor it would produce (D2, D5). -/
theorem skip_outside {s : State} {c : Nat} (hpc : s.pc = c + 2) (hend : Config.memSize ≤ c + 4) :
    skip s = .fault (.invalidAddress c (c + 4)) := by
  have hcursor : s.pc + Config.instrBytes = c + 4 := congrArg (· + 2) hpc
  rw [skip, advance_outside (hcursor ▸ hend), instrStart_of_pc hpc, hcursor]

/-! ### The three conditions (R69 to R71) -/

theorem exec_seImm_eq_ite (x : RegIdx) (kk : Byte) (s : State) :
    exec (.seImm x kk) s = if getReg s x = kk then skip s else .next s :=
  skipIf_eq_ite (equalCondition_iff _ kk) s

theorem exec_sneImm_eq_ite (x : RegIdx) (kk : Byte) (s : State) :
    exec (.sneImm x kk) s = if getReg s x ≠ kk then skip s else .next s :=
  skipIf_eq_ite (differCondition_iff _ kk) s

theorem exec_seReg_eq_ite (x y : RegIdx) (s : State) :
    exec (.seReg x y) s = if getReg s x = getReg s y then skip s else .next s :=
  skipIf_eq_ite (equalCondition_iff _ _) s

/-- Settles O14: by the condition, and for a taken skip by the side of the image's bound it lands on. -/
theorem seImmSkipsWhenEqual : Obligations.SeImmSkipsWhenEqual := by
  intro x kk s
  rw [exec_seImm_eq_ite]
  refine ⟨decodeWord_encode (i := .seImm x kk) rfl, fun heq hin => ?_, fun hne => if_neg hne,
    fun c heq hpc hend => ?_⟩
  · rw [if_pos heq]
    exact skip_inside hin
  · rw [if_pos heq]
    exact skip_outside hpc hend

/-- Settles O15: as SE with the condition negated, so that on the same operands the two choose differently. -/
theorem sneImmSkipsWhenDifferent : Obligations.SneImmSkipsWhenDifferent := by
  intro x kk s
  rw [exec_seImm_eq_ite, exec_sneImm_eq_ite]
  refine ⟨decodeWord_encode (i := .sneImm x kk) rfl, fun hne hin => ?_, fun heq => if_neg (not_not.mpr heq),
    fun c hne hpc hend => ?_, ?_⟩
  · rw [if_pos hne]
    exact skip_inside hin
  · rw [if_pos hne]
    exact skip_outside hpc hend
  · rcases eq_or_ne (getReg s x) kk with heq | hne
    · exact .inl ⟨if_pos heq, if_neg (not_not.mpr heq)⟩
    · exact .inr ⟨if_neg hne, if_pos hne⟩

/-- Settles O16: by the comparison of the two registers, which a register compared with itself always meets; the low
nibble of the word is no part of its class or of its operands (D26). -/
theorem seRegSkipsWhenEqual : Obligations.SeRegSkipsWhenEqual := by
  intro x y n s
  rw [exec_seReg_eq_ite, exec_seReg_eq_ite]
  refine ⟨decodeWord_eq_seReg_iff.mpr ⟨nibble_formatXY .., x_formatXY .., y_formatXY ..⟩, fun heq hin => ?_,
    fun hne => if_neg hne, fun c heq hpc hend => ?_, if_pos rfl⟩
  · rw [if_pos heq]
    exact skip_inside hin
  · rw [if_pos heq]
    exact skip_outside hpc hend

end Sys2Proof.Machine
end

section
/-! Proofs of the statements of 43_register_immediate.md: LD and ADD, each of them one write to a register. -/

namespace Sys2Proof.Machine

/-- A write to a register changes no other register and nothing outside the register file (R17). -/
theorem setReg_frame (x : RegIdx) (v : Byte) (s : State) :
    SameRegsExcept x s (setReg x v s) ∧ (setReg x v s).pc = s.pc ∧ (setReg x v s).stack = s.stack ∧
      SameMem s (setReg x v s) ∧ (setReg x v s).events = s.events ∧ SameRest s (setReg x v s) :=
  ⟨fun _ hr => getReg_setReg_other hr v s, setReg_pc x v s, setReg_stack x v s, fun _ => rfl, setReg_events x v s,
    setReg_I x v s, setReg_lifecycle x v s, setReg_displayAttached x v s⟩

/-- Settles O17: LD is a write of its immediate, and the word is the one LD encodes to. -/
theorem ldImmSetsItsRegister : Obligations.LdImmSetsItsRegister := by
  intro x kk s
  have hdecode : decodeWord (formatXK 0x6#4 x kk) = .ldImm x kk := decodeWord_encode (i := .ldImm x kk) rfl
  exact ⟨hdecode, _, exec_ldImm x kk s, getReg_setReg_same x kk s, setReg_frame x kk s⟩

/-- Settles O18: ADD is a write of the narrowed sum, whose value is the sum modulo 256; no carry is written. -/
theorem addImmAddsModulo256 : Obligations.AddImmAddsModulo256 := by
  intro x kk s
  have hdecode : decodeWord (formatXK 0x7#4 x kk) = .addImm x kk := decodeWord_encode (i := .addImm x kk) rfl
  have hsum : (getReg (setReg x (addWrap (getReg s x) kk) s) x).toNat = ((getReg s x).toNat + kk.toNat) % 256 := by
    rw [getReg_setReg_same, addWrap_toNat]
  exact ⟨hdecode, _, exec_addImm x kk s, hsum, setReg_frame x _ s⟩

end Sys2Proof.Machine
end

section
/-! Proofs of the statements of 44_unrecognized.md: the unrecognized path, each pass of it one event. -/

namespace Sys2Proof.Machine

/-- A step on an unrecognized word reports the word and goes on at the next instruction (R74, R79). -/
theorem step_unrecognized {s : State} {w : Word} (hready : s.lifecycle = .ready) (hin : s.pc + 1 < Config.memSize)
    (hw : instrAt s = .unrecognized w) : step s = .next (emit (.diagUnrecognized w) { s with pc := s.pc + 2 }) := by
  rw [step_exec hready hin, hw, exec_unrecognized]

/-- Settles O19: a word of class 8 or above decodes to the unrecognized path, and that path emits its event from every
state, the one after the fetch among them. -/
theorem unrecognizedWordReportsAndContinues : Obligations.UnrecognizedWordReportsAndContinues := by
  intro w s hw
  have hdecode : decodeWord w = .unrecognized w := decodeWord_classU hw
  refine ⟨hdecode, ⟨_, exec_unrecognized w s, rfl, rfl, onlyPcAndEvents_emit s _⟩, fun hready hin hbytes => ?_⟩
  have hinstr : instrAt s = .unrecognized w := (congrArg decodeWord hbytes).trans hdecode
  exact ⟨_, step_unrecognized hready hin hinstr, rfl, rfl, onlyPcAndEvents_emit { s with pc := s.pc + 2 } _⟩

end Sys2Proof.Machine
end

section
/-! Proofs of the statements of 60_exceptions.md: the fault table, the lifecycle error, the host's channels as outputs,
and the run as its steps one after another. -/

namespace Sys2Proof.Machine

/-! ### What each instruction's fault is (R77) -/

theorem exec_call_eq_fault_iff {nnn : Addr12} {s : State} {f : Fault} :
    exec (.call nnn) s = .fault f ↔
      s.stack.length = Config.stackDepth ∧ f = .stackOverflow (instrStart s) s.pc := by
  by_cases hfull : s.stack.length = Config.stackDepth
  · simp [exec_call_full hfull, hfull, eq_comm]
  · simp [exec_call_room hfull, hfull]

theorem exec_ret_eq_fault_iff {s : State} {f : Fault} :
    exec .ret s = .fault f ↔
      ∃ st a, s.stack = st ++ [a] ∧ Config.memSize ≤ a ∧ f = .invalidAddress (instrStart s) a := by
  rcases stack_cases s with hempty | ⟨st, a, htop⟩
  · simp [exec_ret_empty hempty, hempty]
  · constructor
    · intro h
      by_cases ha : a < Config.memSize
      · rw [exec_ret_inside htop ha] at h
        exact nomatch h
      · rw [exec_ret_outside htop (Nat.not_lt.mp ha)] at h
        exact ⟨st, a, htop, Nat.not_lt.mp ha, (Host.Outcome.fault.inj h).symm⟩
    · rintro ⟨st', b, htop', hb, rfl⟩
      exact exec_ret_outside htop' hb

theorem skipIf_eq_fault_iff {b : Bool} {s : State} {f : Fault} :
    skipIf b s = .fault f ↔
      b = true ∧ Config.memSize ≤ s.pc + 2 ∧ f = .invalidAddress (instrStart s) (s.pc + 2) := by
  cases b with
  | false => simp
  | true =>
    by_cases hin : s.pc + 2 < Config.memSize
    · simp [advance_inside hin, Nat.not_le.mpr hin]
    · have hout := Nat.not_lt.mp hin
      simp [advance_outside hout, hout, eq_comm]

/-- The rows of R77 after the fetch's: what the instruction `i`, fetched at the cursor of `s`, faults with. -/
def InstrFaults (i : Instr) (s : State) (f : Fault) : Prop :=
  ((∃ nnn, i = .call nnn) ∧ s.stack.length = Config.stackDepth ∧ f = .stackOverflow s.pc (s.pc + 2)) ∨
  (i = .ret ∧ (∃ st, s.stack = st ++ [Config.memSize]) ∧ f = .invalidAddress s.pc Config.memSize) ∨
  (((∃ x kk, i = .seImm x kk ∧ getReg s x = kk) ∨
    (∃ x kk, i = .sneImm x kk ∧ getReg s x ≠ kk) ∨
    (∃ x y, i = .seReg x y ∧ getReg s x = getReg s y)) ∧
    Config.memSize ≤ s.pc + 4 ∧ f = .invalidAddress s.pc (s.pc + 4))

/-- An instruction faults exactly as its row says; that no entry lies above `MEM_SIZE` makes RET's row exact. -/
theorem exec_eq_fault_iff {s : State} (hs : Inv s) (i : Instr) (f : Fault) :
    exec i { s with pc := s.pc + 2 } = .fault f ↔ InstrFaults i s f := by
  have hstart : instrStart { s with pc := s.pc + 2 } = s.pc := instrStart_of_pc rfl
  cases i with
  | cls => simp [InstrFaults]
  | sys n => simp [InstrFaults]
  | unrecognized w => simp [InstrFaults]
  | jp n => simp [InstrFaults]
  | ldImm x kk => simp [InstrFaults]
  | addImm x kk => simp [InstrFaults]
  | call n => simp [InstrFaults, exec_call_eq_fault_iff, hstart]
  | seImm x kk =>
    rw [exec_seImm, skipIf_eq_fault_iff, hstart]
    simp [InstrFaults, eq_comm (a := getReg s x)]
  | sneImm x kk =>
    rw [exec_sneImm, skipIf_eq_fault_iff, hstart]
    simp [InstrFaults, eq_comm (a := getReg s x)]
  | seReg x y =>
    rw [exec_seReg, skipIf_eq_fault_iff, hstart]
    simp [InstrFaults, eq_comm (a := getReg s x)]
  | ret =>
    rw [exec_ret_eq_fault_iff, hstart]
    constructor
    · rintro ⟨st, a, htop, ha, rfl⟩
      have hrange := hs.stackRange a (htop ▸ List.mem_append_right st (List.mem_singleton_self a))
      obtain rfl : a = Config.memSize := Nat.le_antisymm hrange.2 ha
      exact .inr (.inl ⟨rfl, ⟨st, htop⟩, rfl⟩)
    · intro h
      obtain ⟨⟨st, htop⟩, rfl⟩ : (∃ st, s.stack = st ++ [Config.memSize]) ∧
          f = .invalidAddress s.pc Config.memSize := by simpa [InstrFaults] using h
      exact ⟨st, _, htop, le_rfl, rfl⟩

/-- Settles O34: by the number of bytes left at the cursor, the instruction's rows where the fetch has both. -/
theorem faultsAreExactlyThoseOfTheTable : Obligations.FaultsAreExactlyThoseOfTheTable := by
  intro s f hs hready
  rcases Nat.lt_trichotomy (s.pc + 1) Config.memSize with hin | hlast | hout
  · rw [step_exec hready hin, exec_eq_fault_iff hs]
    constructor
    · exact fun h => .inr (.inr ⟨hin, h⟩)
    · rintro (⟨hpc, -⟩ | ⟨hpc, -⟩ | ⟨-, h⟩)
      · omega
      · omega
      · exact h
  · rw [step_last hready hlast, hlast]
    constructor
    · exact fun h => .inr (.inl ⟨rfl, (Host.Outcome.fault.inj h).symm⟩)
    · rintro (⟨hpc, -⟩ | ⟨-, rfl⟩ | ⟨hpc, -⟩)
      · omega
      · rfl
      · omega
  · have hpc : Config.memSize ≤ s.pc := Nat.le_of_lt_succ hout
    rw [step_outside hready hpc]
    constructor
    · exact fun h => .inl ⟨hpc, (Host.Outcome.fault.inj h).symm⟩
    · rintro (⟨-, rfl⟩ | ⟨hpc', -⟩ | ⟨hpc', -⟩)
      · rfl
      · omega
      · omega

/-! ### The lifecycle error (R90, D18) -/

theorem seek_ne_refused (a : Nat) (s : State) (r : Refusal) : seek a s ≠ .refused r := by
  by_cases ha : a < Config.memSize
  · rw [seek_inside ha]
    nofun
  · rw [seek_outside (Nat.not_lt.mp ha)]
    nofun

theorem skipIf_ne_refused (b : Bool) (s : State) (r : Refusal) : skipIf b s ≠ .refused r := by
  cases b with
  | false => nofun
  | true => exact seek_ne_refused _ s r

/-- Every instruction has a meaning: none is refused. -/
theorem exec_ne_refused (i : Instr) (s : State) (r : Refusal) : exec i s ≠ .refused r := by
  cases i with
  | cls => nofun
  | sys n => nofun
  | unrecognized w => nofun
  | ldImm x kk => nofun
  | addImm x kk => nofun
  | jp n => exact seek_ne_refused _ s r
  | call n =>
    by_cases hfull : s.stack.length = Config.stackDepth
    · rw [exec_call_full hfull]
      nofun
    · rw [exec_call_room hfull]
      nofun
  | ret =>
    rcases stack_cases s with hempty | ⟨st, a, htop⟩
    · rw [exec_ret_empty hempty]
      nofun
    · by_cases ha : a < Config.memSize
      · rw [exec_ret_inside htop ha]
        nofun
      · rw [exec_ret_outside htop (Nat.not_lt.mp ha)]
        nofun
  | seImm x kk => exact skipIf_ne_refused _ s r
  | sneImm x kk => exact skipIf_ne_refused _ s r
  | seReg x y => exact skipIf_ne_refused _ s r

theorem step_ne_refused {s : State} (hready : s.lifecycle = .ready) (r : Refusal) : step s ≠ .refused r := by
  rcases Nat.lt_trichotomy (s.pc + 1) Config.memSize with hin | hlast | hout
  · rw [step_exec hready hin]
    exact exec_ne_refused _ _ r
  · rw [step_last hready hlast]
    nofun
  · rw [step_outside hready (Nat.le_of_lt_succ hout)]
    nofun

/-- A step that completes leaves the machine Ready. -/
theorem step_next_ready {s t : State} (h : step s = .next t) : t.lifecycle = .ready := by
  obtain ⟨hready, -⟩ := step_eq_next h
  obtain ⟨-, -, hlifecycle, -⟩ := step_frame h
  exact hlifecycle.trans hready

theorem runLoop_ne_refused {s : State} (hready : s.lifecycle = .ready) (k : Nat) (r : Refusal) :
    runLoop k s ≠ .refused r := by
  induction k generalizing s with
  | zero => nofun
  | succ k ih =>
    cases hstep : step s with
    | next t =>
      rw [runLoop_next hstep]
      exact ih (step_next_ready hstep)
    | fault f =>
      rw [runLoop_fault hstep]
      nofun
    | refused r' => exact absurd hstep (step_ne_refused hready r')

theorem step_eq_refused_iff {s : State} {r : Refusal} :
    step s = .refused r ↔ s.lifecycle ≠ .ready ∧ r = .notReady s.lifecycle := by
  by_cases hready : s.lifecycle = .ready
  · simp [step_ne_refused hready, hready]
  · simp [step_notReady hready, hready, eq_comm]

theorem run_eq_refused_iff {k : Nat} {s : State} {r : Refusal} :
    run k s = .refused r ↔ s.lifecycle ≠ .ready ∧ r = .notReady s.lifecycle := by
  by_cases hready : s.lifecycle = .ready
  · simp [run_ready hready, runLoop_ne_refused hready, hready]
  · simp [run_notReady hready, hready, eq_comm]

/-- Settles O35: no instruction refuses and a completed step leaves the machine Ready, so only the check at entry does;
teardown is one update of the lifecycle. -/
theorem onlyTheLifecycleErrorRefuses : Obligations.OnlyTheLifecycleErrorRefuses := fun s =>
  ⟨fun _ => step_eq_refused_iff, fun _ _ => run_eq_refused_iff, new_lifecycle, teardown_lifecycle s, rfl,
    step_eq_refused_iff.mpr ⟨nofun, rfl⟩, rfl⟩

/-! ### What a step emits (R84, R85) -/

/-- The events an instruction emits when it completes (R63, R65, R74). -/
def emittedEvents : Instr → List Event
  | .cls => [.clsHook]
  | .sys nnn => [.diagSys nnn]
  | .unrecognized w => [.diagUnrecognized w]
  | _ => []

theorem skipIf_events {b : Bool} {s t : State} (h : skipIf b s = .next t) : t.events = s.events := by
  rcases skipIf_eq_next h with ⟨-, rfl⟩ | ⟨-, -, rfl⟩ <;> rfl

theorem exec_events {i : Instr} {s t : State} (h : exec i s = .next t) : t.events = s.events ++ emittedEvents i := by
  have silent (hsame : t.events = s.events) : t.events = s.events ++ [] := hsame.trans (List.append_nil _).symm
  cases i with
  | cls => cases h; rfl
  | sys n => cases h; rfl
  | unrecognized w => cases h; rfl
  | ldImm x kk => cases h; exact silent rfl
  | addImm x kk => cases h; exact silent rfl
  | jp n =>
    obtain ⟨-, rfl⟩ := seek_eq_next h
    exact silent rfl
  | call n =>
    obtain ⟨-, rfl⟩ := exec_call_eq_next h
    exact silent rfl
  | ret =>
    rcases exec_ret_eq_next h with ⟨-, rfl⟩ | ⟨st, a, -, -, rfl⟩
    · exact silent rfl
    · exact silent rfl
  | seImm x kk => exact silent (skipIf_events h)
  | sneImm x kk => exact silent (skipIf_events h)
  | seReg x y => exact silent (skipIf_events h)

theorem step_events {s t : State} (h : step s = .next t) : t.events = s.events ++ emittedEvents (instrAt s) := by
  obtain ⟨-, -, hexec⟩ := step_eq_next h
  exact exec_events (s := { s with pc := s.pc + 2 }) hexec

/-! ### That no step reads the channels (R84) -/

/-- The state with `ev` emitted before all that it has emitted itself. -/
def prependEvents (ev : List Event) (s : State) : State := { s with events := ev ++ s.events }

/-- A step carries earlier events through. Put in front, and not in place of those already emitted, they commute with
every emission. -/
theorem step_prependEvents (ev : List Event) (s : State) :
    step (prependEvents ev s) = mapNext (prependEvents ev) (step s) := by
  have hf : LeavesControl (prependEvents ev) := fun _ _ _ => rfl
  have hemit (e : Event) (u : State) : emit e (prependEvents ev u) = prependEvents ev (emit e u) := by
    simp [emit, prependEvents]
  exact hf.step rfl rfl (hf.exec_of_commutes (fun _ _ => rfl) (fun _ _ _ => rfl) hemit _)

theorem step_setEvents (s : State) (ev : List Event) :
    step { s with events := ev } =
      mapNext (fun t => { t with events := ev ++ t.events.drop s.events.length }) (step s) := by
  have hold : s = prependEvents s.events { s with events := [] } := by simp [prependEvents]
  have hnew : { s with events := ev } = prependEvents ev { s with events := [] } := by simp [prependEvents]
  rw [hnew, step_prependEvents]
  conv_rhs => rw [hold, step_prependEvents]
  cases step { s with events := [] } with
  | next t => simp [prependEvents]
  | fault f => rfl
  | refused r => rfl

/-- Settles O36: the diagnostics among the events an instruction emits, the one event of a truncating load, and earlier
events carried through. -/
theorem diagnosticsAreEmittedInOrderAndOnlyObserved : Obligations.DiagnosticsAreEmittedInOrderAndOnlyObserved := by
  refine ⟨fun s t h => ?_, fun bytes s => ?_, step_setEvents⟩
  · rw [diagnostics, step_events h, List.filter_append]
    cases instrAt s <;> rfl
  · rw [diagnostics, load_events, List.filter_append]
    show diagnostics s ++ (if 3584 < bytes.length then _ else _ : List Event).filter Event.isDiagnostic = _
    split <;> rfl

/-! ### The display collaborator (R85, D12) -/

theorem step_setDisplayAttached (s : State) (b : Bool) :
    step { s with displayAttached := b } = mapNext (fun t => { t with displayAttached := b }) (step s) := by
  have hf : LeavesControl (fun t => { t with displayAttached := b }) := fun _ _ _ => rfl
  exact hf.step rfl rfl (hf.exec_of_commutes (fun _ _ => rfl) (fun _ _ _ => rfl) (fun _ _ => rfl) _)

/-- Settles O37: the hooks among the events an instruction emits, and an attachment that no operation reads. -/
theorem displayHookIsAnOutputOnly : Obligations.DisplayHookIsAnOutputOnly := by
  refine ⟨fun s t h => ?_, step_setDisplayAttached, fun s hdetached => ?_⟩
  · rw [step_events h, List.filter_append]
    cases instrAt s <;> rfl
  · simp [displayReceived, hdetached]

/-! ### A run and its steps (R87 to R89, D16) -/

/-- A run that ends in a fault ends in it at every later cancellation point. -/
theorem runLoop_add_of_fault {j : Nat} {s : State} {f : Fault} (h : runLoop j s = .fault f) (k : Nat) :
    runLoop (j + k) s = .fault f := by
  induction j generalizing s with
  | zero => exact nomatch h
  | succ j ih =>
    rw [Nat.succ_add]
    cases hstep : step s with
    | next t =>
      rw [runLoop_next hstep] at h ⊢
      exact ih h
    | fault g =>
      rw [runLoop_fault hstep] at h ⊢
      exact h
    | refused r =>
      rw [runLoop_refused hstep] at h
      exact nomatch h

/-- A run cancelled from a Ready machine leaves it Ready. -/
theorem runLoop_cancelled_ready {k : Nat} {s t : State} (hready : s.lifecycle = .ready)
    (h : runLoop k s = .cancelled t) : t.lifecycle = .ready :=
  runLoop_induction (P := fun u => u.lifecycle = .ready) (fun _ _ _ => step_next_ready) hready h

/-- Settles O40: on a Ready machine a run is its loop, which goes on from every state it reaches, Ready as well, and
stays with a fault; on any other both runs end in the same refusal. -/
theorem runsComposeAtEveryCancellationPoint : Obligations.RunsComposeAtEveryCancellationPoint := by
  refine ⟨fun s hready => ⟨run_ready hready 0, fun k => ⟨fun t hstep => ?_, fun f hstep => ?_,
    step_ne_refused hready⟩⟩, fun j k s => ?_⟩
  · rw [run_ready hready, run_ready (step_next_ready hstep), runLoop_next hstep]
  · rw [run_ready hready, runLoop_fault hstep]
  · by_cases hready : s.lifecycle = .ready
    · rw [run_ready hready, run_ready hready]
      cases hrun : runLoop j s with
      | cancelled t => exact (runLoop_add hrun k).trans (run_ready (runLoop_cancelled_ready hready hrun) k).symm
      | fault f => exact runLoop_add_of_fault hrun k
      | refused r => exact absurd hrun (runLoop_ne_refused hready j r)
    · rw [run_notReady hready, run_notReady hready]

end Sys2Proof.Machine
end

section
/-! Proofs of the statements of 70_reset_and_hazards.md: the state after construction and after reset, the load at the
boundary of the image, and the run into zeroed memory. -/

namespace Sys2Proof.Machine

/-! ### Construction and load (R97 to R99) -/

/-- The image is created with no cell (R32). -/
theorem cleared_mem_wf (attached : Bool) : (cleared attached).mem.wf := ⟨.nil, by simp [cleared]⟩

/-- Construction leaves every register zero (R14, R97). -/
@[simp] theorem getReg_new (program : List Byte) (attached : Bool) (r : RegIdx) :
    getReg (new program attached) r = 0x00#8 := by
  simp [getReg_eq]

/-- Construction copies the bytes of the program there is room for (R98). -/
theorem read_new_inside {program : List Byte} {k : Nat} (hk : k < program.length) (hroom : k < loadRoom)
    (attached : Bool) : (new program attached).mem.read (Config.progStart + k) = program[k] :=
  read_load_inside (s := cleared attached) (cleared_mem_wf attached) hk hroom

/-- Settles O24: the cleared machine's memory reads zero, load writes the program into it, and the rest of the state is
one lemma per field. -/
theorem constructionLoadsTheProgramAndClearsTheRest : Obligations.ConstructionLoadsTheProgramAndClearsTheRest :=
  fun program attached =>
    ⟨fun _ hk hroom => read_new_inside hk hroom attached, fun _ hout => read_load_other (s := cleared attached) hout,
      new_pc program attached, getReg_new program attached, new_stack program attached, new_I program attached,
      new_lifecycle program attached, new_displayAttached program attached, new_events program attached⟩

/-- Settles O28: load's writes stay inside the image, and the stack is empty. -/
theorem constructionMeetsTheInvariant : Obligations.ConstructionMeetsTheInvariant := fun program attached =>
  { memWf := load_mem_wf (s := cleared attached) (cleared_mem_wf attached) program
    pcBound := by rw [new_pc]; decide
    stackBound := by simp
    stackRange := by simp }

/-- Settles O25: construction with the two lengths on either side of the room; a cell at 0x1000 would be outside the
image, against the invariant. -/
theorem loadAtTheBoundaryTruncatesOneByte : Obligations.LoadAtTheBoundaryTruncatesOneByte := by
  intro program attached
  have hroom : loadRoom = 3584 := rfl
  refine ⟨fun hfull => ⟨?_, fun k hk => read_new_inside hk (by omega) attached⟩,
    fun hover => ⟨?_, fun k hk hin => read_new_inside hk hin attached, fun cell hcell => ?_⟩⟩
  · rw [new_events, if_neg (by omega)]
  · rw [new_events, if_pos (by omega)]
  · obtain ⟨-, hcells⟩ := (constructionMeetsTheInvariant program attached).memWf
    obtain ⟨hlt, -⟩ := hcells cell hcell
    exact hlt.ne

/-! ### Reset (R97) -/

/-- Reset is construction with the empty program and no collaborator. -/
theorem reset_eq_new : State.reset = new [] false := rfl

/-- Settles O23: field by field, from construction with the empty program. -/
theorem resetLeavesTheSpecValues : Obligations.ResetLeavesTheSpecValues :=
  ⟨rfl, reset_eq_new ▸ getReg_new [] false, fun _ => rfl, rfl, rfl, rfl, rfl, reset_eq_new⟩

/-- Settles O27: reset is a construction. -/
theorem resetMeetsTheInvariant : Obligations.ResetMeetsTheInvariant := by
  rw [Obligations.ResetMeetsTheInvariant, reset_eq_new]
  exact constructionMeetsTheInvariant [] false

/-! ### A run into zeroed memory (R104) -/

/-- The state after `j` passes of SYS 0x000 from `s`. -/
def afterZeroWords (j : Nat) (s : State) : State :=
  { s with pc := s.pc + 2 * j, events := s.events ++ List.replicate j (.diagSys 0x000#12) }

/-- One pass of SYS 0x000 before `j` more is `j + 1` passes. -/
theorem afterZeroWords_afterZeroWords_one (j : Nat) (s : State) :
    afterZeroWords j (afterZeroWords 1 s) = afterZeroWords (j + 1) s := by
  simp only [afterZeroWords, List.append_assoc, List.replicate_append_replicate, Nat.add_assoc, ← Nat.mul_add,
    Nat.add_comm 1 j]

/-- The word of two zero bytes is SYS 0x000 (R65, D1). -/
theorem instrAt_of_zeroed {s : State} (hzero : ∀ a, s.pc ≤ a → s.mem.read a = 0x00#8) :
    instrAt s = .sys 0x000#12 := by
  rw [instrAt, hzero _ le_rfl, hzero _ (Nat.le_succ _)]
  rfl

/-- A run into zeroed memory passes one SYS 0x000 in each step while two bytes of the image are left. -/
theorem runLoop_zeroed {s : State} (hready : s.lifecycle = .ready) (hzero : ∀ a, s.pc ≤ a → s.mem.read a = 0x00#8)
    {j : Nat} (hin : s.pc + 2 * j ≤ Config.memSize) : runLoop j s = .cancelled (afterZeroWords j s) := by
  induction j generalizing s with
  | zero => simp [afterZeroWords]
  | succ j ih =>
    have hstep : step s = .next (afterZeroWords 1 s) := by
      rw [step_exec hready (by omega), instrAt_of_zeroed hzero, exec_sys]
      rfl
    have hpc : (afterZeroWords 1 s).pc = s.pc + 2 := rfl
    rw [runLoop_next hstep, ih (s := afterZeroWords 1 s) hready (fun a ha => hzero a (by omega)) (by omega),
      afterZeroWords_afterZeroWords_one]

/-- With fewer than two bytes left the fetch faults at the first address outside the image (R34, R77). -/
theorem step_top {s : State} (hready : s.lifecycle = .ready) (hpc : s.pc ≤ Config.memSize)
    (htop : Config.memSize ≤ s.pc + 1) : step s = .fault (.outOfBounds s.pc Config.memSize) := by
  rcases hpc.eq_or_lt with hend | hlt
  · rw [step_outside hready hend.ge, hend]
  · have hlast : s.pc + 1 = Config.memSize := by omega
    rw [step_last hready hlast, hlast]

/-- Settles O44: the run passes the whole words that are left and stops with no byte or one byte to fetch, by the parity
of the cursor. -/
theorem zeroedMemoryRunsToTheTopAndFaults : Obligations.ZeroedMemoryRunsToTheTopAndFaults := by
  intro s hready hpc hzero
  generalize hj : (Config.memSize - s.pc) / 2 = j
  have hsize : Config.memSize = 0x1000 := rfl
  have hrun : runLoop j s = .cancelled (afterZeroWords j s) := runLoop_zeroed hready hzero (by omega)
  have hpc' : (afterZeroWords j s).pc = s.pc + 2 * j := rfl
  have hfault := step_top (s := afterZeroWords j s) hready (by omega) (by omega)
  refine ⟨afterZeroWords j s, (run_ready hready j).trans hrun, ?_, rfl,
    ⟨fun _ => rfl, sameMem_refl s, rfl, sameRest_refl s⟩, fun k => ?_⟩
  · rw [hpc']
    split <;> omega
  · rw [run_ready hready, Nat.add_assoc, runLoop_add hrun, Nat.add_comm 1 k, runLoop_fault hfault]

end Sys2Proof.Machine
end
